-- ==== Sys2Proof/Word.lean ====
section
/-! DEFINITION. The two machine words of the filter engine: a byte of memory and a 32-bit register
(spec 00_scope.md R8, 20_memory.md R39). -/

namespace Sys2Proof

/-- One byte of memory, a number 0 to 255 (20_memory.md R39). -/
abbrev Byte := BitVec 8

/-- One register, command word or register transaction: 32 bits (00_scope.md R8). -/
abbrev Word := BitVec 32

end Sys2Proof
end

