-- ==== Sys2Proof/Config.lean ====
section
/-! DEFINITION. What is fixed for the machine, and the values the spec leaves free.
The two opaque constants have no body: nothing in Lean can compute or prove a value of theirs, so a claim that
mentions them holds whatever they are. -/

namespace Sys2Proof

/-- `ID` reads this always: bits 31:16 are "PC", bits 15:0 revision 1 (10_state.md R25). -/
def Config.idValue : Word := 0x50430001#32

/-- `MEM_BYTES - 1` in the state after reset. The spec leaves `MEM_BYTES` open between 1 and 2^32 (00_scope.md R8);
the model carries it in the state, and starts it at the largest memory. DESIGN CHOICE, log 1. -/
def Config.resetMemLast : Word := 0xFFFFFFFF#32

/-- What the byte at an address holds when neither host nor engine has written it since power-up: any value
(20_memory.md R41, 93_implementation_defined.md U6). Free value, log 2. -/
opaque Config.unwrittenByte : Nat → Byte

/-- The n-th byte whose value a rule calls unspecified: the destination of a command the host disturbed or a reset
cut short, and what the host reads there (93_implementation_defined.md U3, U4). Free value, log 8. -/
opaque Config.freeByte : Nat → Byte

end Sys2Proof
end

