-- ==== Sys2Proof/Machine/State.lean ====
section
/-! DEFINITION. The state of the filter engine and of the world it is attached to, as plain data: the twelve registers
(10_state.md R15), memory (20_memory.md R39), the inputs still to land, and the model's own bookkeeping of free values. -/

namespace Sys2Proof.Machine

/-- The error codes of 60_exceptions.md R139, in the order of their numbers; `none` is `E_NONE`, code 0. Codes 9 to 15
are never produced and have no constructor. -/
inductive ErrCode where
  | none
  | op
  | format
  | dim
  | ksize
  | kdiv
  | align
  | range
  | overlap
  deriving DecidableEq, Repr

/-- The fields of `STATUS` (10_state.md R27); its other bits read 0. -/
structure Status where
  busy : Bool
  done : Bool
  err : Bool
  errcode : ErrCode
  deriving DecidableEq, Repr

/-- The one field of `CTRL` (10_state.md R26); its other bits read 0 and discard writes. -/
structure Ctrl where
  ie : Bool
  deriving DecidableEq, Repr

/-- One thing that happens from outside the engine, or the engine's turn between two of them (00_scope.md R5, R9). -/
inductive Input where
  /-- the engine takes its turn here (log 3) -/
  | engine
  /-- the host reads `size` bytes of the register block at `offset` -/
  | regRead (offset size : Nat)
  /-- the host writes `value`, `size` bytes wide, to the register block at `offset` -/
  | regWrite (offset size : Nat) (value : Word)
  /-- the host reads one byte of memory -/
  | memRead (addr : Nat)
  /-- the host writes one byte of memory -/
  | memWrite (addr : Nat) (value : Byte)
  /-- the host polls `STATUS` until `BUSY = 0` (30_encoding.md R67) -/
  | wait
  /-- the platform applies reset (70_reset_and_hazards.md R155) -/
  | reset
  deriving DecidableEq, Repr

/-- Memory: (address, byte) pairs, addresses strictly rising. A byte that nothing has written is not listed; it has no
known value (20_memory.md R41, log 2). -/
abbrev Memory := List Host.Cell

/-- The canonical form of memory: addresses strictly rising. No entry can equal what an unlisted address reads as, since
that is no value at all but `Config.unwrittenByte` (log 2). -/
abbrev Memory.wf (m : Memory) : Prop := m.Pairwise (fun c d => c.1 < d.1)

/-- A run of bytes of memory: base address and size. -/
abbrev Span := Nat × Nat

/-- The buffers of a command, which the host must leave alone until it has seen the command over (20_memory.md R54,
70_reset_and_hazards.md R160). -/
structure Buffers where
  /-- the bytes the command writes (20_memory.md R49) -/
  writes : Span
  /-- its destination buffer: the image of an in-place command, the output buffer of `CONV` -/
  target : Span
  /-- the buffers it only reads: image and kernel of `CONV` -/
  reads : List Span
  deriving DecidableEq, Repr

/-- The whole machine. `ID` is hard-wired and so no field (10_state.md R25). -/
structure State where
  /-- `CTRL` (10_state.md R26) -/
  ctrl : Ctrl
  /-- `STATUS` (10_state.md R27) -/
  status : Status
  /-- `CMD` (10_state.md R28) -/
  cmd : Word
  /-- `IMG_BASE` (10_state.md R17) -/
  imgBase : Word
  /-- `IMG_WIDTH` (10_state.md R18) -/
  imgWidth : Word
  /-- `IMG_HEIGHT` (10_state.md R19) -/
  imgHeight : Word
  /-- `IMG_DEPTH` (10_state.md R20) -/
  imgDepth : Word
  /-- `OUT_BASE` (10_state.md R21) -/
  outBase : Word
  /-- `KRN_BASE` (10_state.md R22) -/
  krnBase : Word
  /-- `KRN_SIZE` (10_state.md R23) -/
  krnSize : Word
  /-- `KRN_DIV` (10_state.md R24) -/
  krnDiv : Word
  /-- the bytes of memory that something has written (20_memory.md R39) -/
  mem : Memory
  /-- the parameter `MEM_BYTES`, held as its last address `MEM_BYTES - 1`, so that every value of the field is legal
  (00_scope.md R8, log 1) -/
  memLast : Word
  /-- what host and platform still do, oldest first (log 3) -/
  inputs : List Input
  /-- what the last host read returned; `none` before any (log 5) -/
  reply : Option Word
  /-- the host has touched the running command's buffers against 70_reset_and_hazards.md R160 (log 6) -/
  disturbed : Bool
  /-- the buffers of the commands that are over but whose end the host has not yet seen in `STATUS` (20_memory.md R53,
  logs 6 and 24) -/
  unseen : List Buffers
  /-- the number of free values used so far (log 8) -/
  freeIdx : Nat
  deriving DecidableEq, Repr

/-- Why the machine stops. -/
inductive Fault where
  /-- Raised by a host memory access at an address at or above `MEM_BYTES`, where no byte exists (20_memory.md R39).
  Safe: the model stops where a platform might answer something (log 10). -/
  | noSuchAddress
  deriving DecidableEq, Repr

/-- What has no meaning in the model. -/
inductive Refusal where
  /-- Raised by `exec` for an instruction without a meaning. No arm raises it. Safe. -/
  | notModelled (mnemonic : String)
  /-- Raised by a host register access at an offset of 0x40 or more, outside the block: "a model refuses it"
  (10_state.md R29). Safe (log 9). -/
  | offsetOutsideBlock
  /-- Raised by a host register access that is not an aligned 32-bit one: "a model refuses it" (10_state.md R30).
  Safe (log 9). -/
  | notAlignedWord
  deriving DecidableEq, Repr

/-- The state right after power-up reset (10_state.md R37, 70_reset_and_hazards.md R155): every register 0 (`ID` apart),
idle, nothing listed in memory. From `memLast` on the fields are the model's (logs 1, 3, 5, 6, 8). -/
def State.reset : State where
  ctrl := ⟨false⟩
  status := ⟨false, false, false, .none⟩
  cmd := 0#32
  imgBase := 0#32
  imgWidth := 0#32
  imgHeight := 0#32
  imgDepth := 0#32
  outBase := 0#32
  krnBase := 0#32
  krnSize := 0#32
  krnDiv := 0#32
  mem := []
  memLast := Config.resetMemLast
  inputs := []
  reply := .none
  disturbed := false
  unseen := []
  freeIdx := 0

end Sys2Proof.Machine
end

