-- ==== Sys2Proof/Machine/Flags.lean ====
section
/-! DEFINITION. The engine's only flags, `STATUS.BUSY`, `DONE`, `ERR` and `ERRCODE` (10_state.md R34), how each event sets
them (R27), how the host reads `STATUS` and `CTRL`, and the interrupt level derived from them (60_exceptions.md R150). -/

namespace Sys2Proof.Machine

/-- The code number of 60_exceptions.md R139. -/
def ErrCode.code : ErrCode → BitVec 4
  | .none => 0#4
  | .op => 1#4
  | .format => 2#4
  | .dim => 3#4
  | .ksize => 4#4
  | .kdiv => 5#4
  | .align => 6#4
  | .range => 7#4
  | .overlap => 8#4

/-- `STATUS` with nothing running and nothing to report (10_state.md R37). -/
def Status.idle : Status := ⟨false, false, false, .none⟩

/-- `STATUS` from issue to completion: `BUSY` alone (40_command_cycle.md R73). -/
def Status.issued : Status := ⟨true, false, false, .none⟩

/-- `STATUS` after `Complete`: `BUSY` 0, `DONE` 1, and the error if there is one (40_command_cycle.md R78). -/
def Status.completed (e : ErrCode) : Status := ⟨false, true, decide (e ≠ .none), e⟩

/-- `STATUS` after the acknowledge: `DONE`, `ERR`, `ERRCODE` cleared, `BUSY` as it was (60_exceptions.md R148). -/
def Status.acknowledged (st : Status) : Status := ⟨st.busy, false, false, .none⟩

/-- One bit as the given bit of a 32-bit word. -/
def bitAt (b : Bool) (n : Nat) : Word := if b then 1#32 <<< n else 0#32

/-- `STATUS` as the host reads it: `BUSY` bit 0, `DONE` bit 1, `ERR` bit 2, `ERRCODE` bits 11:8, the rest 0 (10_state.md R27). -/
def Status.word (st : Status) : Word :=
  bitAt st.busy 0 ||| bitAt st.done 1 ||| bitAt st.err 2 ||| (st.errcode.code.setWidth 32 <<< 8)

/-- `CTRL` as the host reads it: `IE` bit 0, the rest 0 (10_state.md R26). -/
def Ctrl.word (c : Ctrl) : Word := bitAt c.ie 0

/-- `CTRL` after the host writes `v`: bit 0 is kept, the rest discarded (10_state.md R26). -/
def Ctrl.ofWord (v : Word) : Ctrl := ⟨v.getLsbD 0⟩

/-- The interrupt output, a level: `STATUS.DONE and CTRL.IE` (60_exceptions.md R150). -/
def State.irq (s : State) : Bool := s.status.done && s.ctrl.ie

end Sys2Proof.Machine
end

