-- ==== Sys2Proof/Machine/Ops.lean ====
section
/-! DEFINITION. The named operations over memory and registers: reading and writing bytes, filling a buffer, issuing and
completing a command, reporting an error (the engine's one kind of exception) and acknowledging it (the return). -/

namespace Sys2Proof.Machine

/-- The byte listed at an address, if something has written it. -/
def Memory.lookup : Memory → Nat → Option Byte
  | [], _ => .none
  | c :: m, a => if c.1 = a then .some c.2 else Memory.lookup m a

/-- Memory with one byte written; the addresses stay strictly rising. -/
def Memory.set : Memory → Nat → Byte → Memory
  | [], a, b => [(a, b)]
  | c :: m, a, b =>
    if a < c.1 then (a, b) :: c :: m
    else if a = c.1 then (a, b) :: m
    else c :: Memory.set m a b

/-- Memory with byte `k` of `[base, base + size)` written as `f k`. -/
def Memory.fill (m : Memory) (base : Nat) (f : Nat → Byte) : Nat → Memory
  | 0 => m
  | size + 1 => Memory.set (Memory.fill m base f size) (base + size) (f size)

/-- One byte of memory: the byte last written there, else a free value (20_memory.md R40, R41). -/
def State.byteAt (s : State) (a : Nat) : Byte := (Memory.lookup s.mem a).getD (Config.unwrittenByte a)

/-- `MemRead(a, 1)` as a mathematical integer, 0 to 255 (00_scope.md R11). -/
def State.memRead1 (s : State) (a : Nat) : Int := ((s.byteAt a).toNat : Int)

/-- `MemRead(a, 4)`: little-endian, the byte at `a` is bits 7:0 (20_memory.md R46). -/
def State.memRead4 (s : State) (a : Nat) : Word := s.byteAt (a + 3) ++ s.byteAt (a + 2) ++ s.byteAt (a + 1) ++ s.byteAt a

/-- `sext_32` (00_scope.md R11): the word as a two's-complement integer. -/
def sext32 (w : Word) : Int := if w.toNat < 2 ^ 31 then w.toNat else (w.toNat : Int) - 2 ^ 32

/-- A channel value 0 to 255 as the byte that is written. -/
def toByte (v : Int) : Byte := BitVec.ofInt 8 v

/-- `MEM_BYTES` (00_scope.md R8). -/
def State.memBytes (s : State) : Nat := s.memLast.toNat + 1

/-- Every byte of `[base, base + size)` loses its known value: fresh free values (93_implementation_defined.md U3, U4). -/
def State.forget (s : State) (base size : Nat) : State :=
  { s with
    mem := Memory.fill s.mem base (fun k => Config.freeByte (s.freeIdx + k)) size
    freeIdx := s.freeIdx + size }

/-- The engine writes a command's destination: byte `k` of `[base, base + size)` becomes `f k` (20_memory.md R49, R51).
If the host has disturbed the command, its bytes have no known value instead (70_reset_and_hazards.md R160, log 6). -/
def State.writeBuffer (s : State) (base size : Nat) (f : Nat → Byte) : State :=
  if s.disturbed then s.forget base size else { s with mem := Memory.fill s.mem base f size }

/-- The exchange of `IMG_BASE` and `OUT_BASE` (42_convolution.md R101). -/
def State.swapBases (s : State) : State := { s with imgBase := s.outBase, outBase := s.imgBase }

/-- Issue: `CMD <- w`, `STATUS` becomes `BUSY` alone, nothing else changes (40_command_cycle.md R73). -/
def State.issue (s : State) (w : Word) : State := { s with cmd := w, status := .issued, disturbed := false }

/-- `Complete` (40_command_cycle.md R78), with an error code or with `E_NONE`. -/
def State.complete (s : State) (e : ErrCode) : State := { s with status := .completed e, disturbed := false }

/-- `raise Error(e)`, the engine's one exception entry: the command is over with the error `e`, nothing is saved and
control goes nowhere (60_exceptions.md R146). -/
def State.raiseError (s : State) (e : ErrCode) : State := s.complete e

/-- Acknowledge, the counterpart of a return: `DONE`, `ERR`, `ERRCODE` cleared, nothing restored (60_exceptions.md R148). -/
def State.acknowledge (s : State) : State := { s with status := s.status.acknowledged }

end Sys2Proof.Machine
end

