-- ==== Sys2Proof/Machine/Operands.lean ====
section
/-! DEFINITION. The arithmetic primitives of 00_scope.md R11, the derived operand names of R12, and the addressing of
pixels and kernel weights (20_memory.md R44, R45). All values are mathematical integers. -/

namespace Sys2Proof.Machine

/-- `fdiv(a, b)`: floor division, for `b > 0` (00_scope.md R11). -/
def fdiv (a b : Int) : Int := a / b

/-- `rnd(a, b) = fdiv(2*a + b, 2*b)`: the nearest integer to `a / b`, a tie going to the larger (00_scope.md R11). -/
def rnd (a b : Int) : Int := fdiv (2 * a + b) (2 * b)

/-- `clamp(v, lo, hi)` (00_scope.md R11). -/
def clamp (v lo hi : Int) : Int := if v < lo then lo else if v > hi then hi else v

/-- `W` -/
def State.W (s : State) : Nat := s.imgWidth.toNat
/-- `H` -/
def State.H (s : State) : Nat := s.imgHeight.toNat
/-- `DEPTH` -/
def State.depth (s : State) : Nat := s.imgDepth.toNat
/-- `BPP`: 3 when `DEPTH = 24`, 1 when `DEPTH = 8`; no rule uses it for another depth (log 15). -/
def State.bpp (s : State) : Nat := if s.depth = 24 then 3 else 1
/-- `NPIX` -/
def State.npix (s : State) : Nat := s.W * s.H
/-- `ISIZE` -/
def State.isize (s : State) : Nat := s.npix * s.bpp
/-- `IB` -/
def State.ib (s : State) : Nat := s.imgBase.toNat
/-- `OB` -/
def State.ob (s : State) : Nat := s.outBase.toNat
/-- `KB` -/
def State.kb (s : State) : Nat := s.krnBase.toNat
/-- `N` -/
def State.kn (s : State) : Nat := s.krnSize.toNat
/-- `KD` -/
def State.kd (s : State) : Nat := s.krnDiv.toNat
/-- `KBYTES` -/
def State.kbytes (s : State) : Nat := 4 * s.kn * s.kn
/-- `off` -/
def State.koff (s : State) : Nat := s.kn / 2

/-- `InRange(base, size)`, without wrap-around (00_scope.md R11, 20_memory.md R50). -/
def State.inRange (s : State) (base size : Nat) : Bool := decide (base + size ≤ s.memBytes)

/-- `Overlap(a, sa, b, sb)` (00_scope.md R11). -/
def overlap (a sa b sb : Nat) : Bool := decide (a < b + sb) && decide (b < a + sa)

/-- `ChanAddr(base, x, y, c)` (20_memory.md R44). -/
def State.chanAddr (s : State) (base x y c : Nat) : Nat := base + s.bpp * (y * s.W + x) + c

/-- `k(i, j)`: the signed kernel word of row `i`, column `j` (20_memory.md R45). -/
def State.weight (s : State) (i j : Nat) : Int := sext32 (s.memRead4 (s.kb + 4 * (i * s.kn + j)))

end Sys2Proof.Machine
end

