-- ==== Sys2Proof/Machine/Histogram.lean ====
section
/-! DEFINITION. The histogram of an image's luminance, its cumulative distribution and the remapping table, steps 1 to 5 of
`EQUAL` (43_equalization.md R108 to R114). All of it is local to one `Execute` step (10_state.md R36). -/

namespace Sys2Proof.Machine

/-- Step 1 for a colour: the exact weighted sum, truncated (43_equalization.md R109). -/
def lum (r g b : Int) : Int := fdiv (299 * r + 587 * g + 114 * b) 1000

/-- The luminance of pixel `p`: the intensity itself for depth 8, `Lum` of the colour for depth 24 (43_equalization.md R109). -/
def State.lumAt (s : State) (p : Nat) : Int :=
  if s.depth = 8 then s.memRead1 (s.ib + p)
  else lum (s.memRead1 (s.ib + 3 * p)) (s.memRead1 (s.ib + 3 * p + 1)) (s.memRead1 (s.ib + 3 * p + 2))

/-- The luminances of all pixels, in memory order. -/
def State.lums (s : State) : List Nat := (List.range s.npix).map fun p => (s.lumAt p).toNat

/-- Step 2: the 256 buckets (43_equalization.md R110). -/
def histogram (ls : List Nat) : List Nat := (List.range 256).map fun l => ls.count l

/-- The running totals of a list, starting from `acc`: `cdf[i] = cdf[i-1] + hist[i]` (43_equalization.md R111). -/
def runningTotals (acc : Nat) : List Nat → List Nat
  | [] => []
  | h :: t => (acc + h) :: runningTotals (acc + h) t

/-- Step 3: the cumulative distribution (43_equalization.md R111). -/
def cdf (ls : List Nat) : List Nat := runningTotals 0 (histogram ls)

/-- Step 4: the first nonzero cumulative count (43_equalization.md R112). -/
def cdfMin (ls : List Nat) : Nat := ((cdf ls).find? (fun c => c != 0)).getD 0

/-- Step 5 for one cumulative count: `clampLow0`, then rounding to nearest (43_equalization.md R113). -/
def tableEntry (npix cmin c : Nat) : Int :=
  let num : Int := ((c : Int) - cmin) * 255
  if num ≤ 0 then 0 else rnd num ((npix : Int) - cmin)

/-- Step 5: the remapping table (43_equalization.md R113). -/
def equalized (ls : List Nat) : List Int := (cdf ls).map (tableEntry ls.length (cdfMin ls))

/-- The table's entry for one luminance. -/
def equalizedAt (ls : List Nat) (l : Int) : Int := (equalized ls).getD l.toNat 0

/-- The degenerate image: `NPIX = cdf_min` (43_equalization.md R114). -/
def State.degenerate (s : State) : Bool := s.npix == cdfMin s.lums

/-- The bytes of the image `EQUAL` writes: none for a degenerate image (20_memory.md R49). Once the host has disturbed the
command, whether the image was degenerate is itself unknown and every byte may be written (log 6). -/
def State.equalSize (s : State) : Nat := if s.degenerate && !s.disturbed then 0 else s.isize

end Sys2Proof.Machine
end

