-- ==== Sys2Proof/Syntax.lean ====
section
/-! DEFINITION. The commands of the filter engine: one constructor per row of spec/opcode_table.json
(30_encoding.md R60, R63). -/

namespace Sys2Proof

/-- A legal command. The scalar of `BRIGHT` and `THRESH` is the integer `imm = sext_16(CMD[31:16])` (30_encoding.md R61);
every other operand is in a register (R62). -/
inductive Instr where
  | neg
  | gray
  | bright (imm : Int)
  | thresh (imm : Int)
  | conv
  | equal
  deriving DecidableEq, Repr

end Sys2Proof
end

