-- ==== Sys2Proof/Machine/Validate.lean ====
section
/-! DEFINITION. `Validate`: what makes a command fail, found from the registers alone (40_command_cycle.md R75, R76). -/

namespace Sys2Proof.Machine

/-- The depth a command accepts (30_encoding.md R60, 60_exceptions.md R141). -/
def depthAccepted : Instr → Nat → Bool
  | .neg, d => d == 8 || d == 24
  | .gray, d => d == 24
  | .bright _, d => d == 8 || d == 24
  | .thresh _, d => d == 8
  | .conv, d => d == 8 || d == 24
  | .equal, d => d == 8 || d == 24

/-- Checks 4 to 8 beyond the image are `CONV`'s alone (40_command_cycle.md R76). -/
def usesKernel : Instr → Bool
  | .neg => false
  | .gray => false
  | .bright _ => false
  | .thresh _ => false
  | .conv => true
  | .equal => false

/-- `Validate(c)` for a legal command, checks 2 to 8 in order, the first that fails deciding; `E_NONE` is OK
(40_command_cycle.md R75). Check 1, `E_OP`, is the decoder's refusal (`execute`). It reads registers only. -/
def validate (i : Instr) (s : State) : ErrCode :=
  if depthAccepted i s.depth = false then .format
  else if s.W = 0 ∨ s.H = 0 then .dim
  else if usesKernel i = true ∧ s.kn % 2 = 0 then .ksize
  else if usesKernel i = true ∧ s.kd = 0 then .kdiv
  else if usesKernel i = true ∧ s.kb % 4 ≠ 0 then .align
  else if s.inRange s.ib s.isize = false then .range
  else if usesKernel i = true ∧ s.inRange s.ob s.isize = false then .range
  else if usesKernel i = true ∧ s.inRange s.kb s.kbytes = false then .range
  else if usesKernel i = true ∧ overlap s.ob s.isize s.ib s.isize = true then .overlap
  else if usesKernel i = true ∧ overlap s.ob s.isize s.kb s.kbytes = true then .overlap
  else .none

end Sys2Proof.Machine
end

