-- ==== Sys2Proof/Machine/Execute.lean ====
section
/-! DEFINITION. The buffers of each command, and the shape every command shares: validate, then refuse or perform and
complete (20_memory.md R49, R54; 40_command_cycle.md R74 to R78). -/

namespace Sys2Proof.Machine

/-- The image buffer `[IB, IB + ISIZE)`. -/
def State.imageSpan (s : State) : Span := (s.ib, s.isize)

/-- The output buffer `[OB, OB + ISIZE)`. -/
def State.outputSpan (s : State) : Span := (s.ob, s.isize)

/-- The kernel `[KB, KB + KBYTES)`. -/
def State.kernelSpan (s : State) : Span := (s.kb, s.kbytes)

/-- The buffers of a command that passed `Validate` (20_memory.md R49, R54). -/
def State.buffersOf (s : State) : Instr → Buffers
  | .neg => ⟨s.imageSpan, s.imageSpan, []⟩
  | .gray => ⟨s.imageSpan, s.imageSpan, []⟩
  | .bright _ => ⟨s.imageSpan, s.imageSpan, []⟩
  | .thresh _ => ⟨s.imageSpan, s.imageSpan, []⟩
  | .conv => ⟨s.outputSpan, s.outputSpan, [s.imageSpan, s.kernelSpan]⟩
  | .equal => ⟨(s.ib, s.equalSize), s.imageSpan, []⟩

/-- A decoded command from validation to completion (40_command_cycle.md R74): refused, it changes `STATUS` alone (R77);
else it is performed and completes without error, and the host has yet to see that (20_memory.md R53). `Perform` never
raises an error. -/
def runCommand (i : Instr) (perform : State → State) (s : State) : Host.Outcome State Fault Refusal :=
  if validate i s = .none then
    .next { (perform s).complete .none with unseen := s.buffersOf i :: s.unseen }
  else .next (s.raiseError (validate i s))

end Sys2Proof.Machine
end

