-- ==== Sys2Proof/Machine/Convolution.lean ====
section
/-! DEFINITION. The convolution command `CONV` (42_convolution.md R93 to R105). -/

namespace Sys2Proof.Machine

/-- `in(x, y, c)`: the channel byte of the image at issue (42_convolution.md R96). -/
def State.pixel (s : State) (x y c : Nat) : Int := s.memRead1 (s.chanAddr s.ib x y c)

/-- A pixel whose whole kernel footprint lies inside the image (42_convolution.md R95). -/
def State.interior (s : State) (x y : Nat) : Bool :=
  decide (s.koff ≤ x) && decide (x + s.koff < s.W) && decide (s.koff ≤ y) && decide (y + s.koff < s.H)

/-- The exact weighted sum `S(x, y, c)` of an interior pixel, the kernel not flipped (42_convolution.md R96, R98). -/
def State.convSum (s : State) (x y c : Nat) : Int :=
  ((List.range s.kn).map fun i =>
    ((List.range s.kn).map fun j => s.weight i j * s.pixel (x + j - s.koff) (y + i - s.koff) c).sum).sum

/-- The output value of channel `c` of pixel `(x, y)`: rounded and clamped inside (42_convolution.md R99), copied on the
border (R102). -/
def State.convOut (s : State) (x y c : Nat) : Int :=
  if s.interior x y then clamp (rnd (s.convSum x y c) s.kd) 0 255 else s.pixel x y c

/-- Byte `k` of the output buffer: the channel `(x, y, c)` with `k = BPP*(y*W + x) + c` (20_memory.md R44). -/
def convByte (s : State) (k : Nat) : Byte :=
  toByte (s.convOut (k / s.bpp % s.W) (k / s.bpp / s.W) (k % s.bpp))

/-- `Perform(CONV)`: the whole output buffer is written, then the bases are exchanged (42_convolution.md R94, R100, R101). -/
def performConv (s : State) : State := (s.writeBuffer s.ob s.isize (convByte s)).swapBases

/-- `CONV` (42_convolution.md R94). -/
def execConv (s : State) : Host.Outcome State Fault Refusal := runCommand .conv performConv s

end Sys2Proof.Machine
end

