-- ==== Sys2Proof/Machine/Equalization.lean ====
section
/-! DEFINITION. The histogram equalisation command `EQUAL` (43_equalization.md R107 to R119). Steps 1 to 5
are in Machine/Histogram.lean. -/

namespace Sys2Proof.Machine

/-- `Un`, the numerator of the chroma `U` over 100000 (43_equalization.md R116). -/
def chromaU (r g b : Int) : Int := -14713 * r - 28886 * g + 43600 * b

/-- `Vn`, the numerator of the chroma `V` over 100000 (43_equalization.md R116). -/
def chromaV (r g b : Int) : Int := 61500 * r - 51499 * g - 10001 * b

/-- `E`, the product of the two denominators (43_equalization.md R117). -/
def scaleE : Int := 10000000000

/-- Channel `c` (0 red, 1 green, 2 blue) rebuilt from the new luminance and the old chroma (43_equalization.md R117). -/
def rebuild (y2 un vn : Int) (c : Nat) : Int :=
  let n := if c = 0 then y2 * scaleE + 113983 * vn
    else if c = 1 then y2 * scaleE - 39465 * un - 58060 * vn
    else y2 * scaleE + 203211 * un
  clamp (rnd n scaleE) 0 255

/-- The new channel `c` of pixel `p` for depth 24 (43_equalization.md R116, R117). -/
def State.equalColour (s : State) (p c : Nat) : Int :=
  let r := s.memRead1 (s.ib + 3 * p)
  let g := s.memRead1 (s.ib + 3 * p + 1)
  let b := s.memRead1 (s.ib + 3 * p + 2)
  rebuild (equalizedAt s.lums (lum r g b)) (chromaU r g b) (chromaV r g b) c

/-- Byte `k` of the image under `EQUAL`: step 6 for depth 8 (43_equalization.md R115), step 7 for depth 24. -/
def equalByte (s : State) (k : Nat) : Byte :=
  if s.depth = 8 then toByte (equalizedAt s.lums (s.memRead1 (s.ib + k)))
  else toByte (s.equalColour (k / 3) (k % 3))

/-- `Perform(EQUAL)` (43_equalization.md R118). -/
def performEqual (s : State) : State := s.writeBuffer s.ib s.equalSize (equalByte s)

/-- `EQUAL` (43_equalization.md R118). -/
def execEqual (s : State) : Host.Outcome State Fault Refusal := runCommand .equal performEqual s

end Sys2Proof.Machine
end

