-- ==== Sys2Proof/Machine/PointFilters.lean ====
section
/-! DEFINITION. The point transforms `NEG`, `GRAY`, `BRIGHT`, `THRESH` (41_point_filters.md R85 to R90). Each writes every
byte of the image buffer, byte `k` as a function of the old bytes of its own element. -/

namespace Sys2Proof.Machine

/-- The new byte `k` of the image under `NEG`: `255 - v` (41_point_filters.md R86). -/
def negByte (s : State) (k : Nat) : Byte := toByte (255 - s.memRead1 (s.ib + k))

/-- The new byte `k` under `GRAY`: the truncated mean of the three bytes of pixel `k / 3` (41_point_filters.md R87). -/
def grayByte (s : State) (k : Nat) : Byte :=
  let a := s.ib + 3 * (k / 3)
  toByte (fdiv (s.memRead1 a + s.memRead1 (a + 1) + s.memRead1 (a + 2)) 3)

/-- The new byte `k` under `BRIGHT imm`: `clamp(v + imm, 0, 255)` (41_point_filters.md R88). -/
def brightByte (imm : Int) (s : State) (k : Nat) : Byte := toByte (clamp (s.memRead1 (s.ib + k) + imm) 0 255)

/-- The new byte `k` under `THRESH imm`: 255 if `v >= imm`, else 0 (41_point_filters.md R89). -/
def threshByte (imm : Int) (s : State) (k : Nat) : Byte :=
  if s.memRead1 (s.ib + k) ≥ imm then toByte 255 else toByte 0

/-- `Perform` of a point transform: in place over the whole image buffer (41_point_filters.md R85). -/
def performPoint (f : State → Nat → Byte) (s : State) : State := s.writeBuffer s.ib s.isize (f s)

/-- `NEG` (41_point_filters.md R86). -/
def execNeg (s : State) : Host.Outcome State Fault Refusal := runCommand .neg (performPoint negByte) s

/-- `GRAY` (41_point_filters.md R87). -/
def execGray (s : State) : Host.Outcome State Fault Refusal := runCommand .gray (performPoint grayByte) s

/-- `BRIGHT imm` (41_point_filters.md R88). -/
def execBright (imm : Int) (s : State) : Host.Outcome State Fault Refusal :=
  runCommand (.bright imm) (performPoint (brightByte imm)) s

/-- `THRESH imm` (41_point_filters.md R89). -/
def execThresh (imm : Int) (s : State) : Host.Outcome State Fault Refusal :=
  runCommand (.thresh imm) (performPoint (threshByte imm)) s

end Sys2Proof.Machine
end

