-- ==== Sys2Proof/Machine/Dispatch.lean ====
section
/-! DEFINITION. One arm per command: `Validate`, `Perform`, `Complete` of a decoded command (40_command_cycle.md R74). -/

namespace Sys2Proof.Machine

def exec (i : Instr) (s : State) : Host.Outcome State Fault Refusal :=
  match i with
  | .neg => Sys2Proof.Machine.execNeg s
  | .gray => Sys2Proof.Machine.execGray s
  | .bright imm => Sys2Proof.Machine.execBright imm s
  | .thresh imm => Sys2Proof.Machine.execThresh imm s
  | .conv => Sys2Proof.Machine.execConv s
  | .equal => Sys2Proof.Machine.execEqual s

end Sys2Proof.Machine
end

