-- ==== Sys2Proof/Decode.lean ====
section
/-! DEFINITION. The command word: its fields, the decoder (total on all 2^32 words, refusing by name) and the encoder,
each written from spec/30_encoding.md R59 to R66. -/

namespace Sys2Proof

/-- `OP`, bits 3:0 (30_encoding.md R59). -/
def opField (w : Word) : BitVec 4 := w.extractLsb' 0 4

/-- `RSV`, bits 15:4, which must be zero (30_encoding.md R59). -/
def rsvField (w : Word) : BitVec 12 := w.extractLsb' 4 12

/-- `IMM`, bits 31:16 (30_encoding.md R59). -/
def immField (w : Word) : BitVec 16 := w.extractLsb' 16 16

/-- `sext_16`: the field read as a two's-complement integer (00_scope.md R11). -/
def sext16 (v : BitVec 16) : Int := if v.toNat < 2 ^ 15 then v.toNat else (v.toNat : Int) - 2 ^ 16

/-- Why a word is no command (30_encoding.md R64). Every one of them ends the command with `E_OP`. -/
inductive Reject where
  /-- bits 15:4 are not zero -/
  | reservedBits
  /-- `IMM` is not zero on `NEG`, `GRAY`, `CONV` or `EQUAL` -/
  | strayImmediate
  /-- `OP` is 0 or 7 to 15 -/
  | unknownOp
  deriving DecidableEq, Repr

/-- A command without immediate is legal only with `IMM = 0` (30_encoding.md R64). -/
def plainCommand (w : Word) (i : Instr) : Except Reject Instr :=
  if immField w = 0#16 then .ok i else .error .strayImmediate

/-- `Decode` (30_encoding.md R65). -/
def decodeWord (w : Word) : Except Reject Instr :=
  if rsvField w ≠ 0#12 then .error .reservedBits
  else if opField w = 1#4 then plainCommand w .neg
  else if opField w = 2#4 then plainCommand w .gray
  else if opField w = 3#4 then .ok (.bright (sext16 (immField w)))
  else if opField w = 4#4 then .ok (.thresh (sext16 (immField w)))
  else if opField w = 5#4 then plainCommand w .conv
  else if opField w = 6#4 then plainCommand w .equal
  else .error .unknownOp

/-- The operation code of a command (30_encoding.md R60). -/
def Instr.opcode : Instr → BitVec 4
  | .neg => 1#4
  | .gray => 2#4
  | .bright _ => 3#4
  | .thresh _ => 4#4
  | .conv => 5#4
  | .equal => 6#4

/-- The immediate a command carries; zero where it uses none (30_encoding.md R59). -/
def Instr.immediate : Instr → Int
  | .neg => 0
  | .gray => 0
  | .bright imm => imm
  | .thresh imm => imm
  | .conv => 0
  | .equal => 0

/-- The command word `{IMM, 0x000, OP}` (30_encoding.md R59, R66). -/
def encode (i : Instr) : Word := BitVec.ofInt 16 i.immediate ++ 0#12 ++ i.opcode

/-- The command that the low `nbits` bits of `w` stand for, the bits above being zero; `none` where the decoder refuses. -/
def decodeTableWord (nbits w : Nat) : Option Instr :=
  match decodeWord (BitVec.ofNat 32 (w % 2 ^ nbits)) with
  | .ok i => some i
  | .error _ => none

end Sys2Proof
end

