-- ==== Sys2Proof/Machine/Registers.lean ====
section
/-! DEFINITION. The register block as the host reaches it: offsets, reads and writes (10_state.md R15 to R32). -/

namespace Sys2Proof.Machine

/-- What stands at an offset of the block (10_state.md R15). -/
inductive Reg where
  | id
  | ctrl
  | status
  | cmd
  | imgBase
  | imgWidth
  | imgHeight
  | imgDepth
  | outBase
  | krnBase
  | krnSize
  | krnDiv
  | reserved
  deriving DecidableEq, Repr

/-- The register at a word offset of the block; `none` outside it (10_state.md R15, R29). -/
def Reg.ofOffset (offset : Nat) : Option Reg :=
  [Reg.id, .ctrl, .status, .cmd, .imgBase, .imgWidth, .imgHeight, .imgDepth, .outBase, .krnBase, .krnSize, .krnDiv,
    .reserved, .reserved, .reserved, .reserved][offset / 4]?

/-- The offset of a register (10_state.md R15); the first reserved one for `reserved`. -/
def Reg.offset : Reg → Nat
  | .id => 0x00
  | .ctrl => 0x04
  | .status => 0x08
  | .cmd => 0x0C
  | .imgBase => 0x10
  | .imgWidth => 0x14
  | .imgHeight => 0x18
  | .imgDepth => 0x1C
  | .outBase => 0x20
  | .krnBase => 0x24
  | .krnSize => 0x28
  | .krnDiv => 0x2C
  | .reserved => 0x30

/-- What a read returns; it changes nothing (10_state.md R32). `ID` is hard-wired (R25), reserved offsets read 0 (R29). -/
def State.readReg (s : State) : Reg → Word
  | .id => Config.idValue
  | .ctrl => s.ctrl.word
  | .status => s.status.word
  | .cmd => s.cmd
  | .imgBase => s.imgBase
  | .imgWidth => s.imgWidth
  | .imgHeight => s.imgHeight
  | .imgDepth => s.imgDepth
  | .outBase => s.outBase
  | .krnBase => s.krnBase
  | .krnSize => s.krnSize
  | .krnDiv => s.krnDiv
  | .reserved => 0#32

/-- What a write does while the engine is idle: `ID` and reserved offsets discard it (10_state.md R25, R29), `STATUS` takes
an acknowledge when bit 1 is set (R27), `CMD` issues (R28), the others store. -/
def State.writeIdleReg (s : State) (v : Word) : Reg → State
  | .id => s
  | .ctrl => { s with ctrl := .ofWord v }
  | .status => if v.getLsbD 1 then s.acknowledge else s
  | .cmd => s.issue v
  | .imgBase => { s with imgBase := v }
  | .imgWidth => { s with imgWidth := v }
  | .imgHeight => { s with imgHeight := v }
  | .imgDepth => { s with imgDepth := v }
  | .outBase => { s with outBase := v }
  | .krnBase => { s with krnBase := v }
  | .krnSize => { s with krnSize := v }
  | .krnDiv => { s with krnDiv := v }
  | .reserved => s

/-- A register write: discarded without notice while `BUSY = 1`, whatever the register (10_state.md R31). -/
def State.writeReg (s : State) (r : Reg) (v : Word) : State := if s.status.busy then s else s.writeIdleReg v r

/-- The register a transaction reaches, or why the model refuses it: only aligned 32-bit accesses inside the block have a
meaning (10_state.md R29, R30; log 9). -/
def regAccess (offset size : Nat) : Except Refusal Reg :=
  if size ≠ 4 ∨ offset % 4 ≠ 0 then .error .notAlignedWord
  else match Reg.ofOffset offset with
    | .some r => .ok r
    | .none => .error .offsetOutsideBlock

end Sys2Proof.Machine
end

