-- ==== Sys2Proof/Machine/HostSide.lean ====
section
/-! DEFINITION. What host and platform do to the machine: register and memory transactions, the `WAIT` poll, and reset;
with the host's duty to keep off a command's buffers until it has seen the command over (20_memory.md R53, R54;
70_reset_and_hazards.md R156, R160). -/

namespace Sys2Proof.Machine

/-- The command that will be performed: issued, legal, and not refused by `Validate`. A refused command touches no memory
(40_command_cycle.md R77) and so has no buffers. -/
def State.running (s : State) : Option Instr :=
  if s.status.busy then
    match decodeWord s.cmd with
    | .ok i => if validate i s = .none then .some i else .none
    | .error _ => .none
  else .none

/-- `a` lies in `[base, base + size)`. -/
def inSpan (a : Nat) (span : Span) : Bool := decide (span.1 ≤ a) && decide (a < span.1 + span.2)

/-- `a` is a byte the command writes. -/
def Buffers.written (b : Buffers) (a : Nat) : Bool := inSpan a b.writes

/-- `a` is a byte of one of the command's buffers (20_memory.md R54). -/
def Buffers.covers (b : Buffers) (a : Nat) : Bool := inSpan a b.target || b.reads.any (inSpan a)

/-- The buffers of the running command, if one will be performed. -/
def State.runningBuffers (s : State) : Option Buffers := s.running.map s.buffersOf

/-- The destination buffers of commands that are over lose their known values (93_implementation_defined.md U3). -/
def State.forgetTargets (s : State) : List Buffers → State
  | [] => s
  | b :: bs => (s.forget b.target.1 b.target.2).forgetTargets bs

/-- The host reads a byte. A byte that the running command, or one whose end the host has not seen, writes has no known
value, and reading it breaks the host's duty (70_reset_and_hazards.md R160; logs 6 and 16). -/
def State.hostRead (s : State) (a : Nat) : Host.Outcome State Fault Refusal :=
  if s.memBytes ≤ a then .fault .noSuchAddress
  else if s.runningBuffers.any (·.written a) || s.unseen.any (·.written a) then
    let t := s.forgetTargets (s.unseen.filter (·.written a))
    .next { t with
      reply := .some ((Config.freeByte t.freeIdx).setWidth 32)
      freeIdx := t.freeIdx + 1
      disturbed := s.disturbed || s.runningBuffers.any (·.written a) }
  else .next { s with reply := .some ((s.byteAt a).setWidth 32) }

/-- The host writes a byte. In the buffers of the running command, or of one whose end the host has not seen, this breaks
the host's duty: that command's destination has no known value (70_reset_and_hazards.md R160, log 6). -/
def State.hostWrite (s : State) (a : Nat) (v : Byte) : Host.Outcome State Fault Refusal :=
  if s.memBytes ≤ a then .fault .noSuchAddress
  else
    let t := { s with mem := Memory.set s.mem a v }.forgetTargets (s.unseen.filter (·.covers a))
    .next { t with disturbed := s.disturbed || s.runningBuffers.any (·.covers a) }

/-- The bytes a running command was going to write lose their known values (70_reset_and_hazards.md R156). -/
def State.abandon (s : State) : State :=
  match s.running with
  | .some i => s.forget (s.buffersOf i).writes.1 (s.buffersOf i).writes.2
  | .none => s

/-- Reset: every register takes its reset value and memory is not written (70_reset_and_hazards.md R155); a running command
is abandoned (R156). What is not the engine's stays: the parameter, the host's inputs and what it has read or not seen.
DESIGN CHOICE (log 24): the host's duty to keep off the abandoned command's buffers ends here, so they do not enter `unseen`,
while commands that were over before the reset stay in it until `STATUS` is read; no rule says which of R54 and R160 holds. -/
def State.applyReset (s : State) : State :=
  { State.reset with
    mem := s.abandon.mem
    freeIdx := s.abandon.freeIdx
    memLast := s.memLast
    inputs := s.inputs
    reply := s.reply
    unseen := s.unseen }

/-- The host has read `STATUS`: if `BUSY = 0`, every command before is over and seen to be (20_memory.md R53). -/
def State.seeStatus (s : State) : State := { s with unseen := if s.status.busy then s.unseen else [] }

/-- The host reads a register: the reply, and no change to any register or memory (10_state.md R32). -/
def State.hostReadReg (s : State) (r : Reg) : State :=
  let t := { s with reply := .some (s.readReg r) }
  if r = .status then t.seeStatus else t

/-- One poll of `WAIT`: the host reads `STATUS`; if `BUSY` it will poll again after the engine's turn
(30_encoding.md R67, 40_command_cycle.md R79, log 14). -/
def State.poll (s : State) : State :=
  { s.hostReadReg .status with inputs := if s.status.busy then .engine :: .wait :: s.inputs else s.inputs }

/-- A register read by offset and size (10_state.md R30, R32). -/
def State.regRead (s : State) (offset size : Nat) : Host.Outcome State Fault Refusal :=
  match regAccess offset size with
  | .ok r => .next (s.hostReadReg r)
  | .error e => .refused e

/-- A register write by offset and size (10_state.md R30, R31). -/
def State.regWrite (s : State) (offset size : Nat) (v : Word) : Host.Outcome State Fault Refusal :=
  match regAccess offset size with
  | .ok r => .next (s.writeReg r v)
  | .error e => .refused e

end Sys2Proof.Machine
end

