-- ==== Sys2Proof/Machine/Cycle.lean ====
section
/-! DEFINITION. The engine's `Execute` step and the order in which host, platform and engine move. -/

namespace Sys2Proof.Machine

/-- `Execute` (40_command_cycle.md R74): decode `CMD`; an illegal word ends with `E_OP` (60_exceptions.md R140), a legal
one is validated and performed. -/
def State.execute (s : State) : Host.Outcome State Fault Refusal :=
  match decodeWord s.cmd with
  | .ok i => exec i s
  | .error _ => .next (s.raiseError .op)

/-- The engine's turn: `Execute` is enabled exactly when `BUSY = 1`; idle, the engine does nothing by itself
(40_command_cycle.md R74, 70_reset_and_hazards.md R155). -/
def State.engineTurn (s : State) : Host.Outcome State Fault Refusal :=
  if s.status.busy then s.execute else .next s

/-- One input takes place. -/
def State.take (s : State) : Input → Host.Outcome State Fault Refusal
  | .engine => s.engineTurn
  | .regRead offset size => s.regRead offset size
  | .regWrite offset size v => s.regWrite offset size v
  | .memRead a => s.hostRead a
  | .memWrite a v => s.hostWrite a v
  | .wait => .next s.poll
  | .reset => .next s.applyReset

/-- The oldest input takes place; with none listed it is the engine's turn (log 3). -/
def State.advance (s : State) : Host.Outcome State Fault Refusal :=
  match s.inputs with
  | [] => s.engineTurn
  | e :: rest => State.take { s with inputs := rest } e

/-- The command word `w` issued, and the engine's turn put before everything else (log 4). -/
def State.withCommand (s : State) (w : Word) : State := { s.issue w with inputs := .engine :: s.inputs }

end Sys2Proof.Machine
end

