-- ==== Sys2Proof/Machine/Step.lean ====
section
/-! DEFINITION. One step of the machine, and the state in which a given command word is the next thing executed. -/

namespace Sys2Proof.Machine

/-- One step: the oldest input, or the engine's turn. -/
def step (s : State) : Host.Outcome State Fault Refusal := s.advance

/-- `s` with the command word whose low `nbits` bits are those of `w` issued, so that the very next step executes it: the
engine takes its command from `CMD` and fetches nothing (10_state.md R35, log 4). -/
def State.withFetchWord (s : State) (nbits w : Nat) : State := s.withCommand (BitVec.ofNat 32 (w % 2 ^ nbits))

end Sys2Proof.Machine
end

