-- ==== Sys2Proof/Machine/HostProgram.lean ====
section
/-! DEFINITION. The host's program notation: command lines and pseudo-instructions, and their expansion into inputs
(30_encoding.md R66, R67). -/

namespace Sys2Proof.Machine

/-- One line of a host program (30_encoding.md R67). -/
inductive HostLine where
  /-- `WR <reg>, <value>` -/
  | wr (r : Reg) (v : Word)
  /-- `RD <reg>` -/
  | rd (r : Reg)
  /-- a command line of R66 -/
  | command (i : Instr)
  /-- `WAIT` -/
  | wait
  /-- `ACK` -/
  | ack
  /-- `MEMW <addr>, <b0> <b1> ...` -/
  | memw (addr : Nat) (bytes : List Byte)
  /-- `MEMW32 <addr>, <w0> <w1> ...` -/
  | memw32 (addr : Nat) (words : List Int)
  deriving DecidableEq, Repr

/-- The host stores the bytes at `addr`, `addr + 1`, ... (30_encoding.md R67). -/
def storeBytes : Nat → List Byte → List Input
  | _, [] => []
  | addr, b :: bs => .memWrite addr b :: storeBytes (addr + 1) bs

/-- The four bytes of a signed 32-bit value, little-endian (20_memory.md R46). -/
def wordBytes (v : Int) : List Byte :=
  let w := BitVec.ofInt 32 v
  [w.extractLsb' 0 8, w.extractLsb' 8 8, w.extractLsb' 16 8, w.extractLsb' 24 8]

/-- The expansion of one line (30_encoding.md R67). -/
def HostLine.expand : HostLine → List Input
  | .wr r v => [.regWrite r.offset 4 v]
  | .rd r => [.regRead r.offset 4]
  | .command i => [.regWrite Reg.cmd.offset 4 (encode i), .wait]
  | .wait => [.wait]
  | .ack => [.regWrite Reg.status.offset 4 2#32]
  | .memw addr bytes => storeBytes addr bytes
  | .memw32 addr words => storeBytes addr (words.flatMap wordBytes)

/-- A host program as the inputs it stands for. -/
def hostProgram (lines : List HostLine) : List Input := lines.flatMap HostLine.expand

end Sys2Proof.Machine
end

