-- ==== Sys2Proof/Machine/HostCodec.lean ====
section
/-! DEFINITION. The host's side of an image: the two bitmap codecs, the hand-over of an image to the engine and its
read-back (44_host_codec.md R123 to R137). None of it is done by the engine (00_scope.md R4): the codecs are plain functions
on bytes, kept because the codec decides what pixel memory holds when a command is issued. -/

namespace Sys2Proof.Machine

/-- The host's error kinds (44_host_codec.md R133). -/
inductive CodecError where
  | io
  | format
  | allocation
  deriving DecidableEq, Repr

/-- What a `load` gives: the opaque header and palette (44_host_codec.md R123, R124; no palette in the 24-bit format), the
cached fields, and the pixel bytes in the memory layout of 20_memory.md R42 or R43. -/
structure Image where
  header : List Byte
  palette : List Byte
  width : Nat
  height : Nat
  depth : Nat
  pixels : List Byte
  deriving DecidableEq, Repr

/-- The little-endian number in the `n` bytes at `offset` of a file (44_host_codec.md R125). -/
def fieldLE (file : List Byte) (offset : Nat) : Nat → Nat
  | 0 => 0
  | n + 1 => ((file.drop offset).headD 0#8).toNat + 256 * fieldLE file (offset + 1) n

/-- 8-bit `load` (44_host_codec.md R126): `file` is `none` when it cannot be opened, `room` is how many bytes the host can
allocate (log 19). -/
def load8 (room : Nat) (file : Option (List Byte)) : Except CodecError Image :=
  match file with
  | .none => .error .io
  | .some f =>
    let width := fieldLE f 18 4
    let height := fieldLE f 22 4
    let pixels := (f.drop (fieldLE f 10 4)).take (width * height)
    if f.length < 54 then .error .io
    else if fieldLE f 28 2 ≠ 8 then .error .format
    else if f.length < 54 + 1024 then .error .io
    else if room < width * height then .error .allocation
    else if pixels.length < width * height then .error .io
    else .ok ⟨f.take 54, (f.drop 54).take 1024, width, height, 8, pixels⟩

/-- 8-bit `save`: header, palette, pixels verbatim (44_host_codec.md R127). -/
def save8 (canOpen : Bool) (img : Image) : Except CodecError (List Byte) :=
  if canOpen then .ok (img.header ++ img.palette ++ img.pixels) else .error .io

/-- Where the two 24-bit headers hold their fields, counted from the start of the file. The spec does not give it
(91_not_in_source.md N10): an argument of the codec (log 18). -/
structure HeaderLayout where
  size : Nat
  widthAt : Nat
  heightAt : Nat
  depthAt : Nat
  deriving DecidableEq, Repr

/-- The padding of a 24-bit row in the file (44_host_codec.md R130). -/
def rowPadding (width : Nat) : Nat := (4 - width * 3 % 4) % 4

/-- The bytes of one 24-bit row in the file, padding included. -/
def rowStride (width : Nat) : Nat := width * 3 + rowPadding width

/-- Blue, green, red to red, green, blue, and back (44_host_codec.md R130, R131). -/
def swapChannels : List Byte → List Byte
  | b :: g :: r :: rest => r :: g :: b :: swapChannels rest
  | rest => rest

/-- Memory row `y` of the picture from the file's pixel data, whose rows are stored bottom to top (44_host_codec.md R130). -/
def loadRow (data : List Byte) (width height y : Nat) : List Byte :=
  swapChannels ((data.drop ((height - 1 - y) * rowStride width)).take (width * 3))

/-- 24-bit `load` (44_host_codec.md R130). Whether the padding after the file's last row must be there the spec does not
say; here it need not (log 20). -/
def load24 (lay : HeaderLayout) (room : Nat) (file : Option (List Byte)) : Except CodecError Image :=
  match file with
  | .none => .error .io
  | .some f =>
    let width := fieldLE f lay.widthAt 4
    let height := fieldLE f lay.heightAt 4
    let data := f.drop lay.size
    if f.length < lay.size then .error .io
    else if fieldLE f lay.depthAt 2 ≠ 24 then .error .format
    else if room < height * (width * 3) then .error .allocation
    else if 0 < height ∧ data.length < (height - 1) * rowStride width + width * 3 then .error .io
    else .ok ⟨f.take lay.size, [], width, height, 24, (List.range height).flatMap (loadRow data width height)⟩

/-- File row `k` from the bottom: blue, green, red, then zero padding (44_host_codec.md R131). -/
def saveRow (img : Image) (k : Nat) : List Byte :=
  swapChannels ((img.pixels.drop ((img.height - 1 - k) * (img.width * 3))).take (img.width * 3))
    ++ List.replicate (rowPadding img.width) 0#8

/-- 24-bit `save` (44_host_codec.md R131). -/
def save24 (canOpen : Bool) (img : Image) : Except CodecError (List Byte) :=
  if canOpen then .ok (img.header ++ (List.range img.height).flatMap (saveRow img)) else .error .io

/-- Handing an image to the engine at address `base`: the pixel bytes, then the four handle registers
(44_host_codec.md R137, 70_reset_and_hazards.md R157). -/
def handOver (base : Word) (img : Image) : List HostLine :=
  [.memw base.toNat img.pixels, .wr .imgBase base, .wr .imgWidth (BitVec.ofNat 32 img.width),
    .wr .imgHeight (BitVec.ofNat 32 img.height), .wr .imgDepth (BitVec.ofNat 32 img.depth)]

/-- What `CONV` needs besides: the kernel words, their address, size and divisor, and the output buffer
(70_reset_and_hazards.md R158). -/
def handOverKernel (out krn size div : Word) (words : List Int) : List HostLine :=
  [.memw32 krn.toNat words, .wr .outBase out, .wr .krnBase krn, .wr .krnSize size, .wr .krnDiv div]

/-- One outcome followed by what comes next; a stop stays a stop. -/
def followedBy {α β : Type} (o : Host.Outcome α Fault Refusal) (f : α → Host.Outcome β Fault Refusal) :
    Host.Outcome β Fault Refusal :=
  match o with
  | .next x => f x
  | .fault e => .fault e
  | .refused e => .refused e

/-- One host read as the machine's next step, before whatever else is listed: the state after it and what it returned (a
read that takes place always returns a word). -/
def State.hostTakes (s : State) (e : Input) : Host.Outcome (State × Word) Fault Refusal :=
  followedBy (step { s with inputs := e :: s.inputs }) fun t => .next (t, t.reply.getD 0#32)

/-- The host reads `n` bytes of memory from `a` on, one transaction each. -/
def State.readBytes : Nat → State → Nat → Host.Outcome (State × List Byte) Fault Refusal
  | 0, s, _ => .next (s, [])
  | n + 1, s, a =>
    followedBy (s.hostTakes (.memRead a)) fun (t, w) =>
      followedBy (State.readBytes n t (a + 1)) fun (u, bs) => .next (u, w.setWidth 8 :: bs)

/-- The read-back before a `save` (44_host_codec.md R137): the host reads `IMG_BASE` as it stands then, which after an odd
number of `CONV` is the other buffer, and takes the `ISIZE` pixel bytes from there into the image it saves. -/
def State.readBackImage (s : State) (img : Image) : Host.Outcome (State × Image) Fault Refusal :=
  followedBy (s.hostTakes (.regRead Reg.imgBase.offset 4)) fun (t, base) =>
    followedBy (State.readBytes s.isize t base.toNat) fun (u, pixels) => .next (u, { img with pixels := pixels })

/-- `printInfo`: width, height, depth and buffer size, a pure read (44_host_codec.md R128). -/
def printInfo (s : State) : Nat × Nat × Nat × Nat := (s.W, s.H, s.depth, s.isize)

end Sys2Proof.Machine
end

