-- ==== Sys2Proof/Safety.lean ====
section
/-! DEFINITION. What claims are stated in: the invariant of every reachable state, when a command is performed, what two
states have in common, counts over the pixels of an image, the host's duty of keeping its hands off, and legal inputs. -/

namespace Sys2Proof.Machine

/-- What `STATUS` may hold: `BUSY` and `DONE` never both 1 (10_state.md R27), `ERR` exactly when `ERRCODE` is not 0
(60_exceptions.md R139), and an error only in a report. -/
abbrev Status.legal (st : Status) : Prop :=
  ¬ (st.busy = true ∧ st.done = true) ∧ (st.err = true ↔ st.errcode ≠ .none) ∧ (st.err = true → st.done = true)

/-- The invariant every step keeps: memory in canonical form and inside `[0, MEM_BYTES)` (20_memory.md R39), a legal
`STATUS`, a disturbed command only while one runs, and unseen commands' destinations inside memory (20_memory.md R50). -/
structure State.Inv (s : State) : Prop where
  memCanonical : Memory.wf s.mem
  memInside : ∀ c ∈ s.mem, c.1 < s.memBytes
  statusLegal : s.status.legal
  disturbedBusy : s.disturbed = true → s.status.busy = true
  unseenInside : ∀ b ∈ s.unseen, b.target.1 + b.target.2 ≤ s.memBytes

/-! When a command is performed, in terms of the registers. -/

/-- Which commands accept which depth (41_point_filters.md R90). -/
def depthSuits : Instr → Nat → Prop
  | .neg, d => d = 8 ∨ d = 24
  | .gray, d => d = 24
  | .bright _, d => d = 8 ∨ d = 24
  | .thresh _, d => d = 8
  | .conv, d => d = 8 ∨ d = 24
  | .equal, d => d = 8 ∨ d = 24

/-- The image has a pixel and lies in memory. -/
structure State.ImageReady (s : State) : Prop where
  width : s.W ≠ 0
  height : s.H ≠ 0
  inside : s.ib + s.isize ≤ s.memBytes

/-- What `CONV` needs besides an image (42_convolution.md R93): an odd kernel, a divisor, alignment, both buffers in memory
and the output buffer apart from what is read. -/
structure State.KernelReady (s : State) : Prop where
  odd : s.kn % 2 = 1
  divisor : s.kd ≠ 0
  aligned : s.kb % 4 = 0
  outInside : s.ob + s.isize ≤ s.memBytes
  kernelInside : s.kb + s.kbytes ≤ s.memBytes
  outApartImage : s.ob + s.isize ≤ s.ib ∨ s.ib + s.isize ≤ s.ob
  outApartKernel : s.ob + s.isize ≤ s.kb ∨ s.kb + s.kbytes ≤ s.ob

/-- The cause of each error code for a legal command, as 60_exceptions.md R139 to R144 word it, each taken by itself. -/
def State.causes (s : State) (i : Instr) : ErrCode → Prop
  | .none => False
  | .op => False
  | .format => ¬ depthSuits i s.depth
  | .dim => s.W = 0 ∨ s.H = 0
  | .ksize => i = .conv ∧ s.krnSize.getLsbD 0 = false
  | .kdiv => i = .conv ∧ s.krnDiv = 0#32
  | .align => i = .conv ∧ s.krnBase.extractLsb' 0 2 ≠ 0#2
  | .range => s.memBytes < s.ib + s.isize ∨
      (i = .conv ∧ (s.memBytes < s.ob + s.isize ∨ s.memBytes < s.kb + s.kbytes))
  | .overlap => i = .conv ∧ ∃ a, (s.ob ≤ a ∧ a < s.ob + s.isize) ∧
      ((s.ib ≤ a ∧ a < s.ib + s.isize) ∨ (s.kb ≤ a ∧ a < s.kb + s.kbytes))

/-! What two states have in common. -/

/-- The four registers of the image handle but its base, and the kernel's three. -/
structure State.SameSizes (s t : State) : Prop where
  width : t.imgWidth = s.imgWidth
  height : t.imgHeight = s.imgHeight
  depth : t.imgDepth = s.imgDepth
  krnBase : t.krnBase = s.krnBase
  krnSize : t.krnSize = s.krnSize
  krnDiv : t.krnDiv = s.krnDiv

/-- All eight operand registers. -/
structure State.SameOperands (s t : State) : Prop extends State.SameSizes s t where
  imgBase : t.imgBase = s.imgBase
  outBase : t.outBase = s.outBase

/-- What no command changes: `CTRL`, `CMD`, the parameter, and the host's side. -/
structure State.SameOutside (s t : State) : Prop where
  ctrl : t.ctrl = s.ctrl
  cmd : t.cmd = s.cmd
  memLast : t.memLast = s.memLast
  inputs : t.inputs = s.inputs
  reply : t.reply = s.reply

/-- Every byte outside `[base, base + size)` reads as before. -/
def State.SameBytesBut (s t : State) (base size : Nat) : Prop :=
  ∀ a, ¬ (base ≤ a ∧ a < base + size) → t.byteAt a = s.byteAt a

/-! Counts over the pixels of an image. -/

/-- How many pixels have luminance `l`. -/
def State.countAt (s : State) (l : Int) : Nat := ((List.range s.npix).filter fun p => s.lumAt p = l).length

/-- How many pixels have luminance at most `l`. -/
def State.countUpTo (s : State) (l : Int) : Nat := ((List.range s.npix).filter fun p => s.lumAt p ≤ l).length

/-- `m` is the smallest luminance present. -/
def State.LowestLum (s : State) (m : Int) : Prop := (∃ p < s.npix, s.lumAt p = m) ∧ ∀ p < s.npix, m ≤ s.lumAt p

/-- `m` is the largest luminance present. -/
def State.HighestLum (s : State) (m : Int) : Prop := (∃ p < s.npix, s.lumAt p = m) ∧ ∀ p < s.npix, s.lumAt p ≤ m

/-! The next transaction. -/

/-- It is the engine's turn, and `rest` is what is listed after it: nothing listed, or a turn as the oldest input (log 3). -/
def State.engineNext (s : State) (rest : List Input) : Prop := (s.inputs = [] ∧ rest = []) ∨ s.inputs = .engine :: rest

/-- `r` stands at that offset of the block; the reserved ones are four (10_state.md R15, R29). -/
def Reg.standsAt (r : Reg) (offset : Nat) : Prop :=
  offset = r.offset ∨ (r = .reserved ∧ (offset = 0x34 ∨ offset = 0x38 ∨ offset = 0x3C))

/-- The host's next transaction keeps off the buffers of every command it has not seen over (70_reset_and_hazards.md R160). -/
def State.handsOff (s : State) : Prop :=
  match s.inputs with
  | .memRead a :: _ => s.runningBuffers.any (·.written a) = false ∧ s.unseen.any (·.written a) = false
  | .memWrite a _ :: _ => s.runningBuffers.any (·.covers a) = false ∧ s.unseen.any (·.covers a) = false
  | _ => True

/-- The next transaction is one that the register block and memory have (10_state.md R29, R30; 20_memory.md R39). -/
def State.inputLegal (s : State) : Prop :=
  match s.inputs with
  | .regRead offset size :: _ => size = 4 ∧ offset % 4 = 0 ∧ offset < 0x40
  | .regWrite offset size _ :: _ => size = 4 ∧ offset % 4 = 0 ∧ offset < 0x40
  | .memRead a :: _ => a < s.memBytes
  | .memWrite a _ :: _ => a < s.memBytes
  | _ => True

end Sys2Proof.Machine
end

