-- ==== Sys2Proof/WellFormed.lean ====
section
/-! DEFINITION. Which commands the 32-bit command word can express (30_encoding.md R61, R66). -/

namespace Sys2Proof

/-- `-32768 <= imm <= 32767`, the range of the signed 16-bit immediate (30_encoding.md R61). -/
def immFits (imm : Int) : Bool := decide (-32768 ≤ imm) && decide (imm ≤ 32767)

/-- A command is well formed when its immediate, if it has one, fits the immediate field. -/
def Instr.wf : Instr → Bool
  | .neg => true
  | .gray => true
  | .bright imm => immFits imm
  | .thresh imm => immFits imm
  | .conv => true
  | .equal => true

end Sys2Proof
end

