-- ==== Sys2Proof/Certificates/Slice0/Obligations.lean ====
section
/-! DEFINITION. The statements for the provers, in the order of OBLIGATIONS.json. Each docstring names the rules of spec/ it
formalises. `disturbed = false` says that the host has not broken 70_reset_and_hazards.md R160 since the issue, by the
model's own mark (log 6). No statement rests on a particular free value: one that mentions `Config.unwrittenByte` or `Config.freeByte`
through a byte of memory holds whatever they are. -/

open Sys2Proof Sys2Proof.Machine

/-! Encoding (30_encoding.md). -/

/-- Every command whose immediate fits is what its own word decodes to (R59, R65, R66). -/
def Obligations.EncodedCommandsDecodeBack : Prop := ∀ i : Instr, i.wf = true → decodeWord (encode i) = .ok i

/-- Every word that decodes is the word of the command it decodes to, whose immediate fits: no bit is dropped (R59, R65). -/
def Obligations.DecodedWordsEncodeBack : Prop :=
  ∀ (w : Word) (i : Instr), decodeWord w = .ok i → encode i = w ∧ i.wf = true

/-- The decoder accepts exactly the words of the opcode map, by its masks and matches (R63). -/
def Obligations.DecoderIsTheOpcodeMap : Prop :=
  ∀ w : Word,
    (decodeWord w = .ok .neg ↔ w &&& 0xFFFFFFFF#32 = 0x00000001#32) ∧
    (decodeWord w = .ok .gray ↔ w &&& 0xFFFFFFFF#32 = 0x00000002#32) ∧
    ((∃ imm, decodeWord w = .ok (.bright imm)) ↔ w &&& 0x0000FFFF#32 = 0x00000003#32) ∧
    ((∃ imm, decodeWord w = .ok (.thresh imm)) ↔ w &&& 0x0000FFFF#32 = 0x00000004#32) ∧
    (decodeWord w = .ok .conv ↔ w &&& 0xFFFFFFFF#32 = 0x00000005#32) ∧
    (decodeWord w = .ok .equal ↔ w &&& 0xFFFFFFFF#32 = 0x00000006#32)

/-- The example words of R66 decode to the commands they stand for. -/
def Obligations.ExampleWordsDecode : Prop :=
  decodeWord 0x00140003#32 = .ok (.bright 20) ∧ decodeWord 0xFFCE0003#32 = .ok (.bright (-50)) ∧
  decodeWord 0x00800004#32 = .ok (.thresh 128) ∧ decodeWord 0x00000001#32 = .ok .neg ∧
  decodeWord 0x00000002#32 = .ok .gray ∧ decodeWord 0x00000005#32 = .ok .conv ∧
  decodeWord 0x00000006#32 = .ok .equal

/-- The immediate is bits 31:16 read as a two's-complement integer, and the word of `BRIGHT imm` and `THRESH imm` is the
formula of R66 (R61, R66). -/
def Obligations.ImmediateIsTheSignedHighHalf : Prop :=
  (∀ (w : Word) (imm : Int), decodeWord w = .ok (.bright imm) ∨ decodeWord w = .ok (.thresh imm) →
    (w.toNat / 65536 < 32768 → imm = (w.toNat / 65536 : Nat)) ∧
    (32768 ≤ w.toNat / 65536 → imm = (w.toNat / 65536 : Nat) - 65536)) ∧
  (∀ imm : Int, ((encode (.bright imm)).toNat : Int) = imm % 65536 * 65536 + 3 ∧
    ((encode (.thresh imm)).toNat : Int) = imm % 65536 * 65536 + 4)

/-! The command cycle (40_command_cycle.md). -/

/-- Issue: a host write to `CMD` while idle stores the word and sets `STATUS` to `BUSY` alone, and changes nothing else;
while busy it is discarded (R73). -/
def Obligations.CmdWriteIssues : Prop :=
  ∀ (s : State) (w : Word) (rest : List Input), s.inputs = .regWrite 0x0C 4 w :: rest →
    (s.status.busy = false → ∃ t, step s = .next t ∧ t.cmd = w ∧ t.status = ⟨true, false, false, .none⟩ ∧
      s.SameOperands t ∧ t.ctrl = s.ctrl ∧ t.mem = s.mem ∧ t.memLast = s.memLast ∧ t.inputs = rest ∧
      t.reply = s.reply) ∧
    (s.status.busy = true → step s = .next { s with inputs := rest })

/-- When it is the engine's turn and the issued word decodes, the step is `exec` of that command; the only thing a step adds
is the input it uses up (R74). -/
def Obligations.StepExecutesDecodedCommand : Prop :=
  ∀ (s : State) (i : Instr), s.status.busy = true → decodeWord s.cmd = .ok i →
    (s.inputs = [] → step s = exec i s) ∧
    (∀ rest, s.inputs = .engine :: rest → step s = exec i { s with inputs := rest })

/-- An illegal word, by its fields, ends with `E_OP` and no other effect, whatever the operand registers hold
(60_exceptions.md R140). -/
def Obligations.IllegalWordEndsWithEOp : Prop :=
  ∀ (s : State) (rest : List Input), s.status.busy = true → s.engineNext rest →
    (s.cmd.toNat % 16 = 0 ∨ 7 ≤ s.cmd.toNat % 16 ∨ s.cmd.toNat / 16 % 4096 ≠ 0 ∨
      (s.cmd.toNat % 16 ∈ [1, 2, 5, 6] ∧ s.cmd.toNat / 65536 ≠ 0)) →
    ∃ t, step s = .next t ∧ t.status = ⟨false, true, true, .op⟩ ∧ s.SameOperands t ∧
      State.SameOutside { s with inputs := rest } t ∧ t.mem = s.mem ∧ t.unseen = s.unseen ∧ t.freeIdx = s.freeIdx

/-- A refused command changes `STATUS` alone, and the refusal was found without looking at memory (R77). -/
def Obligations.RefusedCommandOnlyReports : Prop :=
  ∀ (i : Instr) (s : State), validate i s ≠ .none →
    (∃ t, exec i s = .next t ∧ t.status = ⟨false, true, true, validate i s⟩ ∧ s.SameOperands t ∧ s.SameOutside t ∧
      t.mem = s.mem ∧ t.unseen = s.unseen ∧ t.freeIdx = s.freeIdx) ∧
    ∀ m : Memory, validate i { s with mem := m } = validate i s

/-- A command succeeds exactly when no cause of an error applies; else it reports one that applies, the lowest-numbered; and an
illegal word reports `E_OP`, code 1, before any of them (60_exceptions.md R145; the causes are those of R139 to R144, each
worded by itself in `State.causes`). -/
def Obligations.LowestApplicableCodeIsReported : Prop :=
  (∀ (i : Instr) (s : State), ∃ t, exec i s = .next t ∧ (t.status.err = false ↔ ∀ e, ¬ s.causes i e) ∧
    (t.status.err = true → s.causes i t.status.errcode ∧
      ∀ e, s.causes i e → t.status.errcode.code.toNat ≤ e.code.toNat)) ∧
  (∀ (s : State) (rest : List Input), s.status.busy = true → s.engineNext rest → (∃ e, decodeWord s.cmd = .error e) →
    ∃ t, step s = .next t ∧ t.status.err = true ∧ t.status.errcode.code = 1#4)

/-- Every command completes: `BUSY` falls, `DONE` rises, `ERR` and `ERRCODE` report the outcome, `CMD` is kept and the
interrupt follows `CTRL.IE` (R78, R146, R150). -/
def Obligations.EveryCommandReportsCompletion : Prop :=
  ∀ (i : Instr) (s : State), ∃ t, exec i s = .next t ∧ t.status.busy = false ∧ t.status.done = true ∧
    (validate i s = .none → t.status.err = false ∧ t.status.errcode = .none) ∧
    (validate i s ≠ .none → t.status.err = true ∧ t.status.errcode = validate i s) ∧
    s.SameOutside t ∧ t.irq = s.ctrl.ie

/-- A host that waits sees the command over: the poll returns with `BUSY = 0` (R79; that the engine gets its turn between
two polls is the model's reading of the fairness R79 asks for, log 14). A `WAIT` met while idle ends at its first poll, which
changes nothing but the host's reply and its knowledge of completion (30_encoding.md R67). -/
def Obligations.WaitSeesTheCommandOver : Prop :=
  ∀ (s : State) (rest : List Input), s.inputs = .wait :: rest →
    (s.status.busy = true →
      ∃ t, core.run 3 s = .next t ∧ t.inputs = rest ∧ t.status.busy = false ∧ t.status.done = true ∧
        t.reply = some t.status.word ∧ t.status.word.getLsbD 0 = false ∧ t.unseen = []) ∧
    (s.status.busy = false →
      ∃ t, step s = .next t ∧ t.reply = some s.status.word ∧ s.status.word.getLsbD 0 = false ∧
        t = { s with inputs := rest, reply := t.reply, unseen := [] })

/-- A successful command other than `CONV` leaves all eight operand registers unchanged; a successful `CONV` exchanges
`IMG_BASE` and `OUT_BASE` and leaves the other six unchanged (R82). -/
def Obligations.SuccessLeavesOperandsButConvSwaps : Prop :=
  ∀ (i : Instr) (s : State), validate i s = .none → ∃ t, exec i s = .next t ∧ s.SameOutside t ∧
    (i ≠ .conv → s.SameOperands t) ∧
    (i = .conv → s.SameSizes t ∧ t.imgBase = s.outBase ∧ t.outBase = s.imgBase)

/-- A register a command does not read has no effect on it: `OUT_BASE` and the kernel registers on the five commands other
than `CONV` (10_state.md R38). -/
def Obligations.UnreadRegistersHaveNoEffect : Prop :=
  ∀ (i : Instr) (s : State) (ob kb ks kd : Word), i ≠ .conv → ∃ t, exec i s = .next t ∧
    exec i { s with outBase := ob, krnBase := kb, krnSize := ks, krnDiv := kd } =
      .next { t with outBase := ob, krnBase := kb, krnSize := ks, krnDiv := kd }

/-- No command changes a byte outside the bytes it writes: the image for the in-place commands (nothing for a degenerate
image under `EQUAL`), the output buffer for `CONV`, nothing when refused (20_memory.md R49). That a
command the host has disturbed still changes its destination alone, and that only an undisturbed `EQUAL` is sure to keep a
degenerate image, is the model's reading of R160 and U3 (log 6). -/
def Obligations.CommandWritesOnlyItsFootprint : Prop :=
  ∀ (i : Instr) (s : State), ∃ t, exec i s = .next t ∧
    (validate i s ≠ .none → t.mem = s.mem) ∧
    (i ≠ .conv → s.SameBytesBut t s.ib s.isize) ∧
    (i = .conv → s.SameBytesBut t s.ob s.isize) ∧
    (i = .equal → s.degenerate = true → s.disturbed = false → t.mem = s.mem)

/-! Point transforms (41_point_filters.md). -/

/-- `NEG`: every byte of the image becomes `255 - v`; nothing else changes but the report (R86). -/
def Obligations.NegNegatesTheImage : Prop :=
  ∀ s : State, (s.depth = 8 ∨ s.depth = 24) → s.ImageReady → s.disturbed = false →
    ∃ t, exec .neg s = .next t ∧
      (∀ k < s.isize, (t.byteAt (s.ib + k)).toNat = 255 - (s.byteAt (s.ib + k)).toNat) ∧
      s.SameBytesBut t s.ib s.isize ∧ t.status = ⟨false, true, false, .none⟩ ∧ s.SameOperands t ∧ s.SameOutside t

/-- `NEG` twice restores the image exactly (R86, R91). -/
def Obligations.NegIsAnInvolution : Prop :=
  ∀ s : State, (s.depth = 8 ∨ s.depth = 24) → s.ImageReady → s.disturbed = false →
    ∃ t u, exec .neg s = .next t ∧ exec .neg t = .next u ∧ (∀ a, u.byteAt a = s.byteAt a) ∧ s.SameOperands u

/-- `GRAY`: the three bytes of every pixel become the truncated mean of the three (R87). -/
def Obligations.GrayAveragesEveryPixel : Prop :=
  ∀ s : State, s.depth = 24 → s.ImageReady → s.disturbed = false →
    ∃ t, exec .gray s = .next t ∧
      (∀ p < s.npix, ∀ c < 3, (t.byteAt (s.ib + 3 * p + c)).toNat =
        ((s.byteAt (s.ib + 3 * p)).toNat + (s.byteAt (s.ib + 3 * p + 1)).toNat +
          (s.byteAt (s.ib + 3 * p + 2)).toNat) / 3) ∧
      s.SameBytesBut t s.ib s.isize ∧ t.status = ⟨false, true, false, .none⟩ ∧ s.SameOperands t ∧ s.SameOutside t

/-- `GRAY` twice equals `GRAY` once (R87). -/
def Obligations.GrayTwiceIsGrayOnce : Prop :=
  ∀ s : State, s.depth = 24 → s.ImageReady → s.disturbed = false →
    ∃ t u, exec .gray s = .next t ∧ exec .gray t = .next u ∧ ∀ a, u.byteAt a = t.byteAt a

/-- `BRIGHT imm`: every byte becomes `v + imm` clamped to 0 to 255, for every `imm` (R88). -/
def Obligations.BrightAddsAndClamps : Prop :=
  ∀ (s : State) (imm : Int), (s.depth = 8 ∨ s.depth = 24) → s.ImageReady → s.disturbed = false →
    ∃ t, exec (.bright imm) s = .next t ∧
      (∀ k < s.isize, ((t.byteAt (s.ib + k)).toNat : Int) = max 0 (min 255 ((s.byteAt (s.ib + k)).toNat + imm))) ∧
      s.SameBytesBut t s.ib s.isize ∧ t.status = ⟨false, true, false, .none⟩ ∧ s.SameOperands t ∧ s.SameOutside t

/-- `BRIGHT a` then `BRIGHT b` equals `BRIGHT (a + b)` on every byte the first did not clamp; so `BRIGHT d` then
`BRIGHT -d` restores it (40_command_cycle.md R83, R91). -/
def Obligations.BrightnessAddsUpUnlessClamped : Prop :=
  ∀ (s : State) (a b : Int), (s.depth = 8 ∨ s.depth = 24) → s.ImageReady → s.disturbed = false →
    ∃ t u v, exec (.bright a) s = .next t ∧ exec (.bright b) t = .next u ∧ exec (.bright (a + b)) s = .next v ∧
      ∀ k < s.isize, 0 ≤ ((s.byteAt (s.ib + k)).toNat : Int) + a → ((s.byteAt (s.ib + k)).toNat : Int) + a ≤ 255 →
        u.byteAt (s.ib + k) = v.byteAt (s.ib + k) ∧ (b = -a → u.byteAt (s.ib + k) = s.byteAt (s.ib + k))

/-- `THRESH imm`: every byte becomes 255 if it is at least `imm`, as integers, and 0 otherwise (R89). -/
def Obligations.ThreshBinarizesTheImage : Prop :=
  ∀ (s : State) (imm : Int), s.depth = 8 → s.ImageReady → s.disturbed = false →
    ∃ t, exec (.thresh imm) s = .next t ∧
      (∀ k < s.isize, (imm ≤ (s.byteAt (s.ib + k)).toNat → (t.byteAt (s.ib + k)).toNat = 255) ∧
        ((s.byteAt (s.ib + k)).toNat < imm → (t.byteAt (s.ib + k)).toNat = 0)) ∧
      s.SameBytesBut t s.ib s.isize ∧ t.status = ⟨false, true, false, .none⟩ ∧ s.SameOperands t ∧ s.SameOutside t

/-- `THRESH` with a threshold of 1 to 255 leaves an image of 0 and 255 unchanged, so twice is once (R89). -/
def Obligations.ThreshTwiceIsThreshOnce : Prop :=
  ∀ (s : State) (imm : Int), s.depth = 8 → s.ImageReady → s.disturbed = false → 1 ≤ imm → imm ≤ 255 →
    ∃ t u, exec (.thresh imm) s = .next t ∧ exec (.thresh imm) t = .next u ∧ ∀ a, u.byteAt a = t.byteAt a

/-- A depth a command does not accept is refused with `E_FORMAT` and nothing else happens: any depth but 8 and 24, `GRAY`
with 8, `THRESH` with 24 (60_exceptions.md R141). -/
def Obligations.WrongDepthIsRefused : Prop :=
  ∀ (i : Instr) (s : State),
    ((s.depth ≠ 8 ∧ s.depth ≠ 24) ∨ (i = .gray ∧ s.depth = 8) ∨ (∃ imm, i = .thresh imm ∧ s.depth = 24)) →
    ∃ t, exec i s = .next t ∧ t.status = ⟨false, true, true, .format⟩ ∧ t.mem = s.mem ∧ s.SameOperands t ∧
      s.SameOutside t

/-- Zero width or height is refused with `E_DIM` on all six commands and nothing else happens (60_exceptions.md R142). -/
def Obligations.ZeroSizeIsRefused : Prop :=
  ∀ (i : Instr) (s : State), depthSuits i s.depth → (s.imgWidth = 0#32 ∨ s.imgHeight = 0#32) →
    ∃ t, exec i s = .next t ∧ t.status = ⟨false, true, true, .dim⟩ ∧ t.mem = s.mem ∧ s.SameOperands t ∧
      s.SameOutside t

/-! Convolution (42_convolution.md). -/

/-- `CONV`: every interior pixel of the output buffer is, channel by channel, the exact weighted sum over `KRN_DIV`, rounded
to nearest (a tie up) and clamped; every border pixel is copied; all else in memory is unchanged; the two bases are
exchanged (sections 2 and 3, R94 to R102). -/
def Obligations.ConvComputesTheOutputBuffer : Prop :=
  ∀ s : State, (s.depth = 8 ∨ s.depth = 24) → s.ImageReady → s.KernelReady → s.disturbed = false →
    ∃ t, exec .conv s = .next t ∧
      (∀ x < s.W, ∀ y < s.H, ∀ c < s.bpp,
        let new := ((t.byteAt (s.chanAddr s.ob x y c)).toNat : Int)
        let o := s.kn / 2
        let sum := ∑ i ∈ Finset.range s.kn, ∑ j ∈ Finset.range s.kn,
          s.weight i j * (((s.byteAt (s.chanAddr s.ib (x + j - o) (y + i - o) c)).toNat : Nat) : Int)
        (o ≤ x ∧ x + o < s.W ∧ o ≤ y ∧ y + o < s.H →
          new = max 0 (min 255 ((2 * sum + (s.kd : Int)) / (2 * (s.kd : Int))))) ∧
        (¬ (o ≤ x ∧ x + o < s.W ∧ o ≤ y ∧ y + o < s.H) → new = (s.byteAt (s.chanAddr s.ib x y c)).toNat)) ∧
      s.SameBytesBut t s.ob s.isize ∧ t.imgBase = s.outBase ∧ t.outBase = s.imgBase ∧
      t.status = ⟨false, true, false, .none⟩ ∧ s.SameSizes t ∧ s.SameOutside t

/-- A kernel whose centre word is `KRN_DIV` and whose other words are 0 copies the image byte for byte (R105). -/
def Obligations.IdentityKernelCopiesTheImage : Prop :=
  ∀ s : State, (s.depth = 8 ∨ s.depth = 24) → s.ImageReady → s.KernelReady → s.disturbed = false →
    (∀ i < s.kn, ∀ j < s.kn, s.weight i j = if i = s.kn / 2 ∧ j = s.kn / 2 then (s.kd : Int) else 0) →
    ∃ t, exec .conv s = .next t ∧ ∀ k < s.isize, t.byteAt (s.ob + k) = s.byteAt (s.ib + k)

/-- A kernel wider than the image or taller than it has no interior pixel: the output is a copy, and the swap happens
(R104). -/
def Obligations.OversizedKernelCopiesTheImage : Prop :=
  ∀ s : State, (s.depth = 8 ∨ s.depth = 24) → s.ImageReady → s.KernelReady → s.disturbed = false →
    (s.W < s.kn ∨ s.H < s.kn) →
    ∃ t, exec .conv s = .next t ∧ (∀ k < s.isize, t.byteAt (s.ob + k) = s.byteAt (s.ib + k)) ∧
      t.imgBase = s.outBase ∧ t.outBase = s.imgBase

/-- `CONV` never changes the image it reads, and a second one uses the old image as its output: the buffers ping-pong
(R100, R101, R104). The kernel lies apart from the
image; where it does not, the second is refused with `E_OVERLAP` (`LowestApplicableCodeIsReported`). -/
def Obligations.TwoConvolutionsPingPong : Prop :=
  ∀ s : State, (s.depth = 8 ∨ s.depth = 24) → s.ImageReady → s.KernelReady → s.disturbed = false →
    (s.ib + s.isize ≤ s.kb ∨ s.kb + s.kbytes ≤ s.ib) →
    ∃ t u, exec .conv s = .next t ∧ exec .conv t = .next u ∧
      (∀ k < s.isize, t.byteAt (s.ib + k) = s.byteAt (s.ib + k)) ∧
      (∀ k < s.isize, u.byteAt (s.ob + k) = t.byteAt (s.ob + k)) ∧
      (∀ k < s.kbytes, u.byteAt (s.kb + k) = s.byteAt (s.kb + k)) ∧
      u.imgBase = s.imgBase ∧ u.outBase = s.outBase ∧ u.status = ⟨false, true, false, .none⟩

/-- `rnd(a, b)` is the one integer nearest to `a / b`, a tie going to the larger; and rounding then clamping is clamping
then rounding (00_scope.md R11, R99). -/
def Obligations.RoundingIsNearestTiesUp : Prop :=
  ∀ a b : Int, 0 < b →
    (∀ q : Int, rnd a b = q ↔ b * (2 * q - 1) ≤ 2 * a ∧ 2 * a < b * (2 * q + 1)) ∧
    clamp (rnd a b) 0 255 = rnd (max 0 (min (255 * b) a)) b

/-- A kernel weight is the little-endian word at `KB + 4*(i*N + j)` read as a two's-complement integer (20_memory.md R45,
R46). -/
def Obligations.WeightIsLittleEndianSigned : Prop :=
  ∀ (s : State) (i j : Nat),
    let a : Nat := s.krnBase.toNat + 4 * (i * s.krnSize.toNat + j)
    let u : Nat := (s.byteAt a).toNat + 2 ^ 8 * (s.byteAt (a + 1)).toNat + 2 ^ 16 * (s.byteAt (a + 2)).toNat +
      2 ^ 24 * (s.byteAt (a + 3)).toNat
    (u < 2 ^ 31 → s.weight i j = u) ∧ (2 ^ 31 ≤ u → s.weight i j = (u : Int) - 2 ^ 32)

/-! Equalisation (43_equalization.md). -/

/-- The luminance of a pixel: the intensity for depth 8; for depth 24 the exact weighted sum of its colour, truncated; always
0 to 255, and a gray pixel's own value (R109). -/
def Obligations.LuminanceIsTruncatedWeightedSum : Prop :=
  (∀ (s : State) (p : Nat), (s.depth = 8 → s.lumAt p = (s.byteAt (s.ib + p)).toNat) ∧
    (s.depth = 24 → s.lumAt p = (((299 * (s.byteAt (s.ib + 3 * p)).toNat + 587 * (s.byteAt (s.ib + 3 * p + 1)).toNat +
      114 * (s.byteAt (s.ib + 3 * p + 2)).toNat) / 1000 : Nat) : Int)) ∧
    0 ≤ s.lumAt p ∧ s.lumAt p ≤ 255) ∧
  ∀ v : Int, lum v v v = v

/-- Bucket `l` counts the pixels of luminance `l`, and the buckets together count every pixel (R110). -/
def Obligations.HistogramCountsPixels : Prop :=
  ∀ s : State, (histogram s.lums).length = 256 ∧ (∀ l : Nat, l < 256 → (histogram s.lums)[l]? = some (s.countAt l)) ∧
    (histogram s.lums).sum = s.npix

/-- Entry `i` of the cumulative distribution counts the pixels of luminance at most `i`; it starts at bucket 0, adds bucket
by bucket, never falls, and ends at `NPIX` (R111). -/
def Obligations.CdfCountsPixelsUpTo : Prop :=
  ∀ s : State, (cdf s.lums).length = 256 ∧ (∀ i : Nat, i < 256 → (cdf s.lums)[i]? = some (s.countUpTo i)) ∧
    s.countUpTo 0 = s.countAt 0 ∧ (∀ i : Nat, i < 255 → s.countUpTo (i + 1) = s.countUpTo i + s.countAt (i + 1)) ∧
    (∀ i j : Int, i ≤ j → s.countUpTo i ≤ s.countUpTo j) ∧ s.countUpTo 255 = s.npix

/-- `cdf_min` is the number of pixels with the smallest luminance present, and lies between 1 and `NPIX` (R112). -/
def Obligations.CdfMinCountsTheDarkest : Prop :=
  ∀ s : State, 0 < s.npix → ∃ m : Nat, m < 256 ∧ s.LowestLum m ∧ (∀ i : Nat, i < m → (cdf s.lums)[i]? = some 0) ∧
    cdfMin s.lums = s.countAt m ∧ s.countUpTo m = s.countAt m ∧ 1 ≤ cdfMin s.lums ∧ cdfMin s.lums ≤ s.npix

/-- The remapping table of a non-degenerate image: 256 entries, each the rounded quotient of R113 with a negative one
replaced by 0; all within 0 to 255, never falling, 0 up to the smallest luminance and 255 from the largest on (R113). -/
def Obligations.TableSpreadsTheLuminances : Prop :=
  ∀ s : State, 0 < s.npix → cdfMin s.lums ≠ s.npix →
    (equalized s.lums).length = 256 ∧
    (∀ i : Nat, i < 256 → equalizedAt s.lums i =
      if (s.countUpTo i : Int) - cdfMin s.lums ≤ 0 then 0
      else (2 * (((s.countUpTo i : Int) - cdfMin s.lums) * 255) + ((s.npix : Int) - cdfMin s.lums)) /
        (2 * ((s.npix : Int) - cdfMin s.lums))) ∧
    (∀ i : Nat, i < 256 → 0 ≤ equalizedAt s.lums i ∧ equalizedAt s.lums i ≤ 255) ∧
    (∀ i j : Nat, i ≤ j → j < 256 → equalizedAt s.lums i ≤ equalizedAt s.lums j) ∧
    (∀ m : Nat, s.LowestLum m → ∀ i : Nat, i ≤ m → equalizedAt s.lums i = 0) ∧
    (∀ m : Nat, s.HighestLum m → ∀ i : Nat, i < 256 → m ≤ i → equalizedAt s.lums i = 255)

/-- The degenerate image is the one in which every pixel has the same luminance, and `EQUAL` on it succeeds without writing
a byte (R114). -/
def Obligations.EqualLeavesDegenerateImages : Prop :=
  ∀ s : State, (s.depth = 8 ∨ s.depth = 24) → s.ImageReady →
    (s.npix = cdfMin s.lums ↔ ∀ p < s.npix, ∀ q < s.npix, s.lumAt p = s.lumAt q) ∧
    (s.npix = cdfMin s.lums → s.disturbed = false → ∃ t, exec .equal s = .next t ∧ t.mem = s.mem ∧
      t.status = ⟨false, true, false, .none⟩ ∧ s.SameOperands t ∧ s.SameOutside t)

/-- `EQUAL` on an 8-bit image that is not degenerate: every byte becomes the table's entry for it, computed here from counts
of pixels: `c` pixels no brighter, `cmin` the darkest (R113, R115). -/
def Obligations.EqualRemapsEightBitPixels : Prop :=
  ∀ (s : State) (m : Int), s.depth = 8 → s.ImageReady → s.disturbed = false → s.LowestLum m →
    s.countUpTo m ≠ s.npix →
    ∃ t, exec .equal s = .next t ∧
      (∀ k < s.isize,
        let c := s.countUpTo (s.byteAt (s.ib + k)).toNat
        let cmin := s.countUpTo m
        (t.byteAt (s.ib + k)).toNat = (2 * ((c - cmin) * 255) + (s.npix - cmin)) / (2 * (s.npix - cmin))) ∧
      s.SameBytesBut t s.ib s.isize ∧ t.status = ⟨false, true, false, .none⟩ ∧ s.SameOperands t ∧ s.SameOutside t

/-- `EQUAL` on a 24-bit image that is not degenerate: each pixel's colour is rebuilt from the new luminance `y2` and the
chroma of its old colour, each channel rounded to nearest and clamped (R116, R117). -/
def Obligations.EqualRebuildsColourPixels : Prop :=
  ∀ (s : State) (m : Int), s.depth = 24 → s.ImageReady → s.disturbed = false → s.LowestLum m →
    s.countUpTo m ≠ s.npix →
    ∃ t, exec .equal s = .next t ∧
      (∀ p < s.npix,
        let a : Nat := s.ib + 3 * p
        let r := ((s.byteAt a).toNat : Int)
        let g := ((s.byteAt (a + 1)).toNat : Int)
        let b := ((s.byteAt (a + 2)).toNat : Int)
        let c := s.countUpTo (s.lumAt p)
        let cmin := s.countUpTo m
        let y2 : Int := ((2 * ((c - cmin) * 255) + (s.npix - cmin)) / (2 * (s.npix - cmin)) : Nat)
        let un := -14713 * r - 28886 * g + 43600 * b
        let vn := 61500 * r - 51499 * g - 10001 * b
        let near := fun n : Int => max 0 (min 255 ((2 * n + 10 ^ 10) / (2 * 10 ^ 10)))
        ((t.byteAt a).toNat : Int) = near (y2 * 10 ^ 10 + 113983 * vn) ∧
        ((t.byteAt (a + 1)).toNat : Int) = near (y2 * 10 ^ 10 - 39465 * un - 58060 * vn) ∧
        ((t.byteAt (a + 2)).toNat : Int) = near (y2 * 10 ^ 10 + 203211 * un)) ∧
      s.SameBytesBut t s.ib s.isize ∧ t.status = ⟨false, true, false, .none⟩ ∧ s.SameOperands t ∧ s.SameOutside t

/-- A gray pixel of a 24-bit image stays gray under `EQUAL`, with the table's entry for its value in all three channels
(R119). -/
def Obligations.EqualKeepsGrayPixelsGray : Prop :=
  ∀ (s : State) (p : Nat) (v : Byte), s.depth = 24 → s.ImageReady → s.disturbed = false →
    s.npix ≠ cdfMin s.lums → p < s.npix → (∀ c < 3, s.byteAt (s.ib + 3 * p + c) = v) →
    ∃ t, exec .equal s = .next t ∧
      ∀ c < 3, ((t.byteAt (s.ib + 3 * p + c)).toNat : Int) = equalizedAt s.lums v.toNat

/-- On an 8-bit image whose table sends no two luminances present to one value, a second `EQUAL` changes nothing (R120);
stated where the host has not interfered with the first (log 6). -/
def Obligations.EqualTwiceIsEqualOnceWhenInjective : Prop :=
  ∀ s : State, s.depth = 8 → s.ImageReady → s.disturbed = false →
    (∀ p < s.npix, ∀ q < s.npix, equalizedAt s.lums (s.lumAt p) = equalizedAt s.lums (s.lumAt q) →
      s.lumAt p = s.lumAt q) →
    ∃ t u, exec .equal s = .next t ∧ exec .equal t = .next u ∧ ∀ a, u.byteAt a = t.byteAt a

/-! Registers, the report and the interrupt (10_state.md, 60_exceptions.md). -/

/-- The interrupt level is `DONE and IE`: every completion, success or error, raises it when enabled; clearing `IE`,
acknowledging, and issuing a command each take it down (60_exceptions.md R150). -/
def Obligations.InterruptIsDoneAndEnabled : Prop :=
  ∀ s : State, (s.irq = true ↔ s.status.done = true ∧ s.ctrl.ie = true) ∧
    (∀ i, ∃ t, exec i s = .next t ∧ t.irq = s.ctrl.ie) ∧
    (s.status.busy = false → (s.writeReg .status 2#32).irq = false ∧ (∀ w, (s.writeReg .cmd w).irq = false) ∧
      (∀ v : Word, v.getLsbD 0 = false → (s.writeReg .ctrl v).irq = false) ∧
      (∀ v : Word, v.getLsbD 0 = true → (s.writeReg .ctrl v).irq = s.status.done))

/-- `BUSY` rises only when the host writes `CMD`, and `DONE` rises only when a command completes, by the engine's turn
(10_state.md R27; 60_exceptions.md R150; 44_host_codec.md R138: the engine starts nothing by itself). -/
def Obligations.BusyAndDoneHaveOneSource : Prop :=
  ∀ s t : State, step s = .next t →
    (s.status.busy = false → t.status.busy = true →
      ∃ w rest, s.inputs = .regWrite 0x0C 4 w :: rest ∧ t.cmd = w ∧ t.inputs = rest) ∧
    (s.status.done = false → t.status.done = true →
      s.status.busy = true ∧ t.status.busy = false ∧ (s.inputs = [] ∨ s.inputs.head? = some .engine))

/-- A host write to `STATUS` clears `DONE`, `ERR` and `ERRCODE`, and so the interrupt, if bit 1 of the word is 1 and the
engine is idle; else it changes nothing. It is optional: issuing the next command clears the same fields
(60_exceptions.md R148, 10_state.md R27). -/
def Obligations.StatusWriteAcknowledges : Prop :=
  ∀ (s : State) (v w : Word) (rest : List Input),
    (s.status.busy = false → v.getLsbD 1 = true → ∃ t, step { s with inputs := .regWrite 0x08 4 v :: rest } = .next t ∧
      t = { s with status := ⟨false, false, false, .none⟩, inputs := rest } ∧ t.irq = false) ∧
    (s.status.busy = true ∨ v.getLsbD 1 = false →
      step { s with inputs := .regWrite 0x08 4 v :: rest } = .next { s with inputs := rest }) ∧
    (s.status.busy = false → ∃ t, step { s with inputs := .regWrite 0x0C 4 w :: rest } = .next t ∧
      t.status.done = false ∧ t.status.err = false ∧ t.status.errcode = .none)

/-- While the engine is busy every register write, to any offset of the block, is discarded (10_state.md R31). -/
def Obligations.BusyDiscardsRegisterWrites : Prop :=
  ∀ (s : State) (offset : Nat) (v : Word) (rest : List Input), s.status.busy = true → offset % 4 = 0 → offset < 0x40 →
    s.inputs = .regWrite offset 4 v :: rest → step s = .next { s with inputs := rest }

/-- A register read changes nothing but the host's own reply and knowledge of completion, at any time; while busy `STATUS`
reads `BUSY` alone (10_state.md R32), and each of the four reserved offsets reads 0 (R29). The premise `Inv` rules out
unreachable reports. -/
def Obligations.RegisterReadsHaveNoEffect : Prop :=
  ∀ (s : State) (r : Reg) (offset : Nat) (rest : List Input), s.Inv → r.standsAt offset →
    s.inputs = .regRead offset 4 :: rest →
    ∃ t, step s = .next t ∧ t.reply = some (s.readReg r) ∧ t.inputs = rest ∧ s.SameOperands t ∧ t.ctrl = s.ctrl ∧
      t.status = s.status ∧ t.cmd = s.cmd ∧ t.mem = s.mem ∧ t.memLast = s.memLast ∧
      (s.status.busy = true → r = .status → t.reply = some 1#32) ∧ (r = .reserved → t.reply = some 0#32)

/-- A host write to a register while idle: every operand register and `CMD` keep the whole word, `CTRL` bit 0 of it, `ID` and
the four reserved offsets nothing; every other register reads as before (but for `STATUS` when `CMD` is written, which issues)
and no byte of memory changes (10_state.md R15 to R29). -/
def Obligations.RegistersReadBackWhatTheyStore : Prop :=
  ∀ (s : State) (r : Reg) (offset : Nat) (v : Word) (rest : List Input), s.status.busy = false → r.standsAt offset →
    s.inputs = .regWrite offset 4 v :: rest →
    ∃ t, step s = .next t ∧
      (r ∈ [Reg.imgBase, .imgWidth, .imgHeight, .imgDepth, .outBase, .krnBase, .krnSize, .krnDiv, .cmd] →
        t.readReg r = v) ∧
      (r = .ctrl → t.readReg .ctrl = v &&& 1#32) ∧
      (r = .status → t.readReg .status = if v.getLsbD 1 then 0#32 else s.readReg .status) ∧
      (r = .cmd → t.readReg .status = 1#32) ∧
      (r = .id ∨ r = .reserved → t = { s with inputs := rest }) ∧
      t.readReg .id = 0x50430001#32 ∧ t.readReg .reserved = 0#32 ∧
      (∀ q, q ≠ r → (r = .cmd → q ≠ .status) → t.readReg q = s.readReg q) ∧
      t.mem = s.mem ∧ t.memLast = s.memLast ∧ t.inputs = rest ∧ t.reply = s.reply ∧ t.unseen = s.unseen ∧
      t.freeIdx = s.freeIdx

/-- `STATUS` reads `BUSY` at bit 0, `DONE` at 1, `ERR` at 2, `ERRCODE` at 11:8 by the number of R139, and 0 elsewhere
(10_state.md R27). -/
def Obligations.StatusWordHasItsFields : Prop :=
  ∀ st : Status, st.word.getLsbD 0 = st.busy ∧ st.word.getLsbD 1 = st.done ∧ st.word.getLsbD 2 = st.err ∧
    st.word.extractLsb' 8 4 = st.errcode.code ∧ st.word.extractLsb' 3 5 = 0#5 ∧ st.word.extractLsb' 12 20 = 0#20

/-- The model stops exactly at the accesses the spec gives no meaning: a register access that is not an aligned 32-bit one
inside the block, and a host memory access where no byte exists (10_state.md R29, R30; 20_memory.md R39; log 9, log 10). -/
def Obligations.OnlyStrayAccessesStop : Prop :=
  ∀ s : State, (∃ t, step s = .next t) ↔ s.inputLegal

/-! Reset, order and invariants (70_reset_and_hazards.md). -/

/-- Reset: every register takes its reset value, the interrupt is low, and, when no command runs, no byte of memory changes;
the engine then stays so by itself (R155). -/
def Obligations.ResetRestoresRegisters : Prop :=
  ∀ (s : State) (rest : List Input), s.inputs = .reset :: rest →
    ∃ t, step s = .next t ∧ (∀ r, t.readReg r = State.reset.readReg r) ∧ t.irq = false ∧ t.memLast = s.memLast ∧
      t.inputs = rest ∧ (s.status.busy = false → t.mem = s.mem) ∧
      step { t with inputs := [] } = .next { t with inputs := [] }

/-- Reset while a command runs abandons it: only bytes it was going to write lose their values; the image and the kernel of
an abandoned `CONV` are intact; every register reads its reset value, so no swap and no report is seen (R156). That a command
`Validate` would refuse, and an illegal word, keep all of memory is the model's reading of R156 by 20_memory.md R49 (log 7). -/
def Obligations.ResetAbandonsTheCommand : Prop :=
  ∀ (s : State) (rest : List Input), s.status.busy = true → s.inputs = .reset :: rest →
    ∃ t, step s = .next t ∧ (∀ r, t.readReg r = State.reset.readReg r) ∧ t.irq = false ∧ t.memLast = s.memLast ∧
      t.inputs = rest ∧
      ((∃ e, decodeWord s.cmd = .error e) → t.mem = s.mem) ∧
      (∀ i, decodeWord s.cmd = .ok i →
        (validate i s ≠ .none → t.mem = s.mem) ∧
        (i ≠ .conv → s.SameBytesBut t s.ib s.isize) ∧
        (i = .conv → s.SameBytesBut t s.ob s.isize))

/-- What reset leaves: `ID` reads `0x50430001`, every other register 0, and every command is then refused with `E_FORMAT`
(10_state.md R37). -/
def Obligations.AfterResetEveryCommandIsRefused : Prop :=
  State.reset.readReg .id = 0x50430001#32 ∧ (∀ r, r ≠ .id → State.reset.readReg r = 0#32) ∧
  ∀ i, ∃ t, exec i State.reset = .next t ∧ t.status = ⟨false, true, true, .format⟩ ∧ t.mem = State.reset.mem

/-- Idle and with no input, the engine executes nothing by itself (R155). -/
def Obligations.IdleEngineDoesNothing : Prop :=
  ∀ s : State, s.status.busy = false → s.inputs = [] → step s = .next s

/-- The invariant holds after reset. -/
def Obligations.ResetMeetsTheInvariant : Prop := State.reset.Inv

/-- Every step keeps the invariant, and `MEM_BYTES` never changes (10_state.md R27; 20_memory.md R39, R50; 00_scope.md R8). -/
def Obligations.StepKeepsTheInvariant : Prop :=
  ∀ s t : State, s.Inv → step s = .next t → t.Inv ∧ t.memLast = s.memLast

/-- A step of a host that keeps its hands off, with no reset of a busy engine, uses up no free value and disturbs no command
(70_reset_and_hazards.md R160; 20_memory.md R54; the counter and the mark are the model's, logs 6 and 8). -/
def Obligations.HandsOffUsesUpNoFreeValue : Prop :=
  ∀ s t : State, s.handsOff → s.disturbed = false → (s.status.busy = true → s.inputs.head? ≠ some .reset) →
    step s = .next t → t.freeIdx = s.freeIdx ∧ t.disturbed = false

/-- Memory is plain: a host read returns the byte last written there, another byte reads as it did, and reading changes no
memory; also while a command runs or is still to be seen over, for a write outside its buffers and a read of a byte it does
not write (20_memory.md R40, R54). So the read-back of an image before a `save` takes the `ISIZE` bytes at `IMG_BASE` as it
stands, one by one, and changes nothing but the host's reply (44_host_codec.md R137). -/
def Obligations.HostReadsTheByteLastWritten : Prop :=
  (∀ (s : State) (a b : Nat) (v : Byte), a < s.memBytes → b < s.memBytes →
    s.runningBuffers.any (·.covers a) = false → s.unseen.any (·.covers a) = false →
    s.runningBuffers.any (·.written b) = false → s.unseen.any (·.written b) = false →
    ∃ t, core.run 2 { s with inputs := [.memWrite a v, .memRead b] } = .next t ∧
      t.reply = some ((if b = a then v else s.byteAt b).setWidth 32) ∧
      (∀ c, t.byteAt c = if c = a then v else s.byteAt c) ∧
      t = { s with mem := t.mem, inputs := [], reply := t.reply }) ∧
  (∀ (s : State) (img : Image), s.ib + s.isize ≤ s.memBytes →
    (∀ k < s.isize, s.runningBuffers.any (·.written (s.ib + k)) = false ∧
      s.unseen.any (·.written (s.ib + k)) = false) →
    ∃ t out, s.readBackImage img = .next (t, out) ∧ out.pixels.length = s.isize ∧
      (∀ k < s.isize, out.pixels[k]? = some (s.byteAt (s.ib + k))) ∧ out = { img with pixels := out.pixels } ∧
      t = { s with reply := t.reply })

/-- One atomic `Execute` (log 11) loses nothing: a host write outside the buffers of the running command comes to the same state
before it and after it (40_command_cycle.md R80; 20_memory.md R51, R54). -/
def Obligations.HostWriteElsewhereCommutesWithExecute : Prop :=
  ∀ (s : State) (a : Nat) (v : Byte), s.Inv → s.status.busy = true → s.disturbed = false → a < s.memBytes →
    s.runningBuffers.any (·.covers a) = false → s.unseen.any (·.covers a) = false →
    ∃ t, core.run 2 { s with inputs := [.memWrite a v] } = .next t ∧
      core.run 2 { s with inputs := [.engine, .memWrite a v] } = .next t

/-! The host's codecs (44_host_codec.md), outside the hardware block. -/

/-- 8-bit `save(load(F))` is `F` when the pixel data starts right after the palette and ends the file (section 5,
R136; the codec's limits are the model's, log 19). -/
def Obligations.EightBitCodecRoundTrips : Prop :=
  ∀ (room : Nat) (f : List Byte) (img : Image), load8 room (some f) = .ok img → fieldLE f 10 4 = 54 + 1024 →
    f.length = 54 + 1024 + img.width * img.height → save8 true img = .ok f

/-- 24-bit `save(load(F))` is `F` when the row padding of `F` is zero and the last row ends it (section 5, R136; the
header layout, the codec's limits and the padding are the model's, logs 18 to 21). -/
def Obligations.ColourCodecRoundTrips : Prop :=
  ∀ (lay : HeaderLayout) (room : Nat) (f : List Byte) (img : Image), load24 lay room (some f) = .ok img →
    f.length = lay.size + img.height * rowStride img.width →
    (∀ k < img.height, ∀ j < rowPadding img.width,
      f[lay.size + k * rowStride img.width + img.width * 3 + j]? = some 0#8) →
    save24 true img = .ok f
end

