-- ==== Sys2Proof/Laws/Decode.lean ====
section
/-! SUPPORT. The fields of the command word and of an encoded command, as numbers. -/

namespace Sys2Proof

theorem opField_toNat (w : Word) : (opField w).toNat = w.toNat % 16 := by simp [opField]

theorem rsvField_toNat (w : Word) : (rsvField w).toNat = w.toNat / 16 % 4096 := by
  simp [rsvField, Nat.shiftRight_eq_div_pow]

theorem immField_toNat (w : Word) : (immField w).toNat = w.toNat / 65536 := by
  have := w.isLt
  simp [immField, Nat.shiftRight_eq_div_pow]; omega

theorem toNat_append_add {n m : Nat} (x : BitVec n) (y : BitVec m) : (x ++ y).toNat = x.toNat * 2 ^ m + y.toNat := by
  rw [BitVec.toNat_append, ← Nat.shiftLeft_add_eq_or_of_lt y.isLt, Nat.shiftLeft_eq]

/-- The command word as a number: the immediate in the high half, the operation code in the low (30_encoding.md R66). -/
theorem encode_toNat (i : Instr) : (encode i).toNat = (i.immediate % 65536).toNat * 65536 + i.opcode.toNat := by
  have h : (encode i).toNat = (BitVec.ofInt 16 i.immediate ++ 0#12 ++ i.opcode).toNat := rfl
  rw [h, toNat_append_add, toNat_append_add]
  simp [BitVec.toNat_ofInt]
  ring

theorem opField_encode (i : Instr) : opField (encode i) = i.opcode := by
  apply BitVec.eq_of_toNat_eq
  have := i.opcode.isLt
  rw [opField_toNat, encode_toNat]; omega

theorem rsvField_encode (i : Instr) : rsvField (encode i) = 0#12 := by
  apply BitVec.eq_of_toNat_eq
  have := i.opcode.isLt
  rw [rsvField_toNat, encode_toNat]; simp; omega

theorem immField_encode (i : Instr) : immField (encode i) = BitVec.ofInt 16 i.immediate := by
  apply BitVec.eq_of_toNat_eq
  have := i.opcode.isLt
  rw [immField_toNat, encode_toNat, BitVec.toNat_ofInt]; simp; omega

/-- A word is its three fields. -/
theorem toNat_eq_fields (w : Word) :
    w.toNat = (immField w).toNat * 65536 + (rsvField w).toNat * 16 + (opField w).toNat := by
  rw [immField_toNat, rsvField_toNat, opField_toNat]; omega

/-- Sign extension undoes the immediate's encoding where it fits. -/
theorem sext16_ofInt {v : Int} (h : immFits v = true) : sext16 (BitVec.ofInt 16 v) = v := by
  simp only [immFits, Bool.and_eq_true, decide_eq_true_eq] at h
  unfold sext16
  simp only [BitVec.toNat_ofInt]
  split_ifs <;> omega

theorem ofInt_sext16 (v : BitVec 16) : BitVec.ofInt 16 (sext16 v) = v := by
  apply BitVec.eq_of_toNat_eq
  rw [BitVec.toNat_ofInt]
  have := v.isLt
  unfold sext16; split_ifs <;> omega

theorem immFits_sext16 (v : BitVec 16) : immFits (sext16 v) = true := by
  have := v.isLt
  unfold immFits sext16
  split_ifs <;> simp <;> omega

/-- What a word that decodes looks like, field by field. -/
theorem decodeWord_fields {w : Word} {i : Instr} (h : decodeWord w = .ok i) :
    rsvField w = 0#12 ∧ opField w = i.opcode ∧ immField w = BitVec.ofInt 16 i.immediate ∧ i.wf = true := by
  unfold decodeWord plainCommand at h
  split_ifs at h with h1 h2 h3 h4 h5 h6 h7 h8 h9 h10 h11 <;> cases h <;>
    simp_all [Instr.opcode, Instr.immediate, Instr.wf, ofInt_sext16, immFits_sext16]

/-- A word is refused exactly when its fields say so (30_encoding.md R64). -/
theorem decodeWord_error_iff (w : Word) : (∃ e, decodeWord w = .error e) ↔
    (rsvField w ≠ 0#12 ∨ (opField w).toNat = 0 ∨ 7 ≤ (opField w).toNat ∨
      ((opField w).toNat ∈ [1, 2, 5, 6] ∧ immField w ≠ 0#16)) := by
  have h16 := (opField w).isLt
  have key : ∀ k : BitVec 4, opField w = k ↔ (opField w).toNat = k.toNat := fun k => BitVec.toNat_inj.symm
  unfold decodeWord plainCommand
  simp only [key]
  split_ifs <;> simp_all
  omega

end Sys2Proof
end

