-- ==== Sys2Proof/Laws/Memory.lean ====
section
/-! SUPPORT. Memory: what a written byte reads as, that every write keeps the canonical form, and that memories in
canonical form that read alike are equal data. -/

namespace Sys2Proof.Machine

theorem Memory.lookup_set_same (m : Memory) (a : Nat) (b : Byte) : (Memory.set m a b).lookup a = some b := by
  induction m with
  | nil => simp [Memory.set, Memory.lookup]
  | cons c m ih =>
    simp only [Memory.set]
    split_ifs with h1 h2
    · simp [Memory.lookup]
    · simp [Memory.lookup]
    · have h3 : ¬ c.1 = a := fun h => h2 h.symm
      simp [Memory.lookup, h3, ih]

theorem Memory.lookup_set_ne (m : Memory) {a a' : Nat} (b : Byte) (h : a' ≠ a) :
    (Memory.set m a b).lookup a' = m.lookup a' := by
  induction m with
  | nil => simp [Memory.set, Memory.lookup, h.symm]
  | cons c m ih =>
    simp only [Memory.set]
    split_ifs with h1 h2
    · simp [Memory.lookup, h.symm]
    · subst h2; simp [Memory.lookup, h.symm]
    · simp [Memory.lookup, ih]

theorem Memory.lookup_set (m : Memory) (a a' : Nat) (b : Byte) :
    (Memory.set m a b).lookup a' = if a' = a then some b else m.lookup a' := by
  split_ifs with h
  · subst h; exact Memory.lookup_set_same ..
  · exact Memory.lookup_set_ne m b h

/-- A written memory lists nothing but the written cell and what was there. -/
theorem Memory.mem_set {m : Memory} {a : Nat} {b : Byte} {c : Host.Cell} (h : c ∈ Memory.set m a b) :
    c = (a, b) ∨ c ∈ m := by
  induction m with
  | nil => simpa [Memory.set] using h
  | cons d m ih =>
    simp only [Memory.set] at h
    split_ifs at h with h1 h2
    · simpa using h
    · rcases List.mem_cons.1 h with h | h
      · exact .inl h
      · exact .inr (List.mem_cons_of_mem _ h)
    · rcases List.mem_cons.1 h with h | h
      · exact .inr (h ▸ List.mem_cons_self)
      · exact (ih h).imp_right (List.mem_cons_of_mem _)

theorem Memory.set_wf {m : Memory} (h : m.wf) (a : Nat) (b : Byte) : (Memory.set m a b).wf := by
  induction m with
  | nil => simp [Memory.set, Memory.wf]
  | cons c m ih =>
    obtain ⟨hc, hm⟩ := List.pairwise_cons.1 h
    simp only [Memory.set]
    split_ifs with h1 h2
    · refine List.pairwise_cons.2 ⟨fun d hd => ?_, h⟩
      rcases List.mem_cons.1 hd with rfl | hd
      · exact h1
      · exact lt_trans h1 (hc d hd)
    · exact List.pairwise_cons.2 ⟨fun d hd => h2 ▸ hc d hd, hm⟩
    · refine List.pairwise_cons.2 ⟨fun d hd => ?_, ih hm⟩
      rcases Memory.mem_set hd with rfl | hd
      · show c.1 < a
        omega
      · exact hc d hd

theorem Memory.lookup_fill (m : Memory) (base : Nat) (f : Nat → Byte) (size a : Nat) :
    (Memory.fill m base f size).lookup a =
      if base ≤ a ∧ a < base + size then some (f (a - base)) else m.lookup a := by
  induction size with
  | zero => rw [if_neg (by omega)]; rfl
  | succ n ih =>
    simp only [Memory.fill, Memory.lookup_set]
    by_cases h : a = base + n
    · subst h; simp
    · rw [if_neg h, ih]
      by_cases h2 : base ≤ a ∧ a < base + n
      · rw [if_pos h2, if_pos ⟨h2.1, by omega⟩]
      · rw [if_neg h2, if_neg (by omega)]

theorem Memory.fill_wf {m : Memory} (h : m.wf) (base : Nat) (f : Nat → Byte) (size : Nat) :
    (Memory.fill m base f size).wf := by
  induction size with
  | zero => exact h
  | succ n ih => exact Memory.set_wf ih _ _

/-- A filled memory lists nothing but addresses of the filled run and what was there. -/
theorem Memory.mem_fill {m : Memory} {base : Nat} {f : Nat → Byte} {size : Nat} {c : Host.Cell}
    (h : c ∈ Memory.fill m base f size) : (base ≤ c.1 ∧ c.1 < base + size) ∨ c ∈ m := by
  induction size with
  | zero => exact .inr h
  | succ n ih =>
    rcases Memory.mem_set h with rfl | h
    · exact .inl ⟨Nat.le_add_right .., by simp⟩
    · exact (ih h).imp_left fun h => ⟨h.1, by omega⟩

/-- An address below every listed one is not listed. -/
theorem Memory.lookup_none_of_lt {m : Memory} {a : Nat} (h : ∀ c ∈ m, a < c.1) : m.lookup a = none := by
  induction m with
  | nil => rfl
  | cons c m ih =>
    have h1 : ¬ c.1 = a := by have := h c List.mem_cons_self; omega
    simp [Memory.lookup, h1, ih fun d hd => h d (List.mem_cons_of_mem _ hd)]

/-- Memories in canonical form that read alike everywhere are the same list. -/
theorem Memory.ext_of_lookup {m n : Memory} (hm : m.wf) (hn : n.wf) (h : ∀ a, m.lookup a = n.lookup a) : m = n := by
  induction m generalizing n with
  | nil =>
    cases n with
    | nil => rfl
    | cons d n => have := h d.1; simp [Memory.lookup] at this
  | cons c m ih =>
    cases n with
    | nil => have := h c.1; simp [Memory.lookup] at this
    | cons d n =>
      obtain ⟨hc, hm'⟩ := List.pairwise_cons.1 hm
      obtain ⟨hd, hn'⟩ := List.pairwise_cons.1 hn
      have key : c.1 = d.1 := by
        rcases lt_trichotomy c.1 d.1 with hlt | heq | hgt
        · have h1 := h c.1
          rw [Memory.lookup_none_of_lt (m := d :: n) (a := c.1) ?_] at h1
          · simp [Memory.lookup] at h1
          · intro e he
            rcases List.mem_cons.1 he with rfl | he
            · exact hlt
            · exact lt_trans hlt (hd e he)
        · exact heq
        · have h1 := h d.1
          rw [Memory.lookup_none_of_lt (m := c :: m) (a := d.1) ?_] at h1
          · simp [Memory.lookup] at h1
          · intro e he
            rcases List.mem_cons.1 he with rfl | he
            · exact hgt
            · exact lt_trans hgt (hc e he)
      have hval : c.2 = d.2 := by
        have h1 := h c.1
        rw [Memory.lookup, Memory.lookup, if_pos rfl, if_pos key.symm] at h1
        exact Option.some.inj h1
      have hcd : c = d := Prod.ext key hval
      subst hcd
      refine congrArg (c :: ·) (ih hm' hn' fun a => ?_)
      by_cases ha : c.1 = a
      · subst ha
        rw [Memory.lookup_none_of_lt hc, Memory.lookup_none_of_lt hd]
      · have h1 := h a
        simpa [Memory.lookup, ha] using h1

end Sys2Proof.Machine
end

