-- ==== Sys2Proof/Laws/State.lean ====
section
/-! SUPPORT. What each update of the state leaves in each field, one lemma per field, so that no later proof unfolds a
record update; and that the derived operand names of 00_scope.md R12 read registers alone. -/

namespace Sys2Proof.Machine


@[simp] theorem State.forget_ctrl (s : State) (base size : Nat) : (s.forget base size).ctrl = s.ctrl := rfl
@[simp] theorem State.forget_status (s : State) (base size : Nat) : (s.forget base size).status = s.status := rfl
@[simp] theorem State.forget_cmd (s : State) (base size : Nat) : (s.forget base size).cmd = s.cmd := rfl
@[simp] theorem State.forget_imgBase (s : State) (base size : Nat) : (s.forget base size).imgBase = s.imgBase := rfl
@[simp] theorem State.forget_imgWidth (s : State) (base size : Nat) : (s.forget base size).imgWidth = s.imgWidth := rfl
@[simp] theorem State.forget_imgHeight (s : State) (base size : Nat) : (s.forget base size).imgHeight = s.imgHeight := rfl
@[simp] theorem State.forget_imgDepth (s : State) (base size : Nat) : (s.forget base size).imgDepth = s.imgDepth := rfl
@[simp] theorem State.forget_outBase (s : State) (base size : Nat) : (s.forget base size).outBase = s.outBase := rfl
@[simp] theorem State.forget_krnBase (s : State) (base size : Nat) : (s.forget base size).krnBase = s.krnBase := rfl
@[simp] theorem State.forget_krnSize (s : State) (base size : Nat) : (s.forget base size).krnSize = s.krnSize := rfl
@[simp] theorem State.forget_krnDiv (s : State) (base size : Nat) : (s.forget base size).krnDiv = s.krnDiv := rfl
@[simp] theorem State.forget_mem (s : State) (base size : Nat) : (s.forget base size).mem = Memory.fill s.mem base (fun k => Config.freeByte (s.freeIdx + k)) size := rfl
@[simp] theorem State.forget_memLast (s : State) (base size : Nat) : (s.forget base size).memLast = s.memLast := rfl
@[simp] theorem State.forget_inputs (s : State) (base size : Nat) : (s.forget base size).inputs = s.inputs := rfl
@[simp] theorem State.forget_reply (s : State) (base size : Nat) : (s.forget base size).reply = s.reply := rfl
@[simp] theorem State.forget_disturbed (s : State) (base size : Nat) : (s.forget base size).disturbed = s.disturbed := rfl
@[simp] theorem State.forget_unseen (s : State) (base size : Nat) : (s.forget base size).unseen = s.unseen := rfl
@[simp] theorem State.forget_freeIdx (s : State) (base size : Nat) : (s.forget base size).freeIdx = s.freeIdx + size := rfl

@[simp] theorem State.writeBuffer_ctrl (s : State) (base size : Nat) (f : Nat → Byte) : (s.writeBuffer base size f).ctrl = s.ctrl := by
  unfold State.writeBuffer; split <;> rfl
@[simp] theorem State.writeBuffer_status (s : State) (base size : Nat) (f : Nat → Byte) : (s.writeBuffer base size f).status = s.status := by
  unfold State.writeBuffer; split <;> rfl
@[simp] theorem State.writeBuffer_cmd (s : State) (base size : Nat) (f : Nat → Byte) : (s.writeBuffer base size f).cmd = s.cmd := by
  unfold State.writeBuffer; split <;> rfl
@[simp] theorem State.writeBuffer_imgBase (s : State) (base size : Nat) (f : Nat → Byte) : (s.writeBuffer base size f).imgBase = s.imgBase := by
  unfold State.writeBuffer; split <;> rfl
@[simp] theorem State.writeBuffer_imgWidth (s : State) (base size : Nat) (f : Nat → Byte) : (s.writeBuffer base size f).imgWidth = s.imgWidth := by
  unfold State.writeBuffer; split <;> rfl
@[simp] theorem State.writeBuffer_imgHeight (s : State) (base size : Nat) (f : Nat → Byte) : (s.writeBuffer base size f).imgHeight = s.imgHeight := by
  unfold State.writeBuffer; split <;> rfl
@[simp] theorem State.writeBuffer_imgDepth (s : State) (base size : Nat) (f : Nat → Byte) : (s.writeBuffer base size f).imgDepth = s.imgDepth := by
  unfold State.writeBuffer; split <;> rfl
@[simp] theorem State.writeBuffer_outBase (s : State) (base size : Nat) (f : Nat → Byte) : (s.writeBuffer base size f).outBase = s.outBase := by
  unfold State.writeBuffer; split <;> rfl
@[simp] theorem State.writeBuffer_krnBase (s : State) (base size : Nat) (f : Nat → Byte) : (s.writeBuffer base size f).krnBase = s.krnBase := by
  unfold State.writeBuffer; split <;> rfl
@[simp] theorem State.writeBuffer_krnSize (s : State) (base size : Nat) (f : Nat → Byte) : (s.writeBuffer base size f).krnSize = s.krnSize := by
  unfold State.writeBuffer; split <;> rfl
@[simp] theorem State.writeBuffer_krnDiv (s : State) (base size : Nat) (f : Nat → Byte) : (s.writeBuffer base size f).krnDiv = s.krnDiv := by
  unfold State.writeBuffer; split <;> rfl
@[simp] theorem State.writeBuffer_memLast (s : State) (base size : Nat) (f : Nat → Byte) : (s.writeBuffer base size f).memLast = s.memLast := by
  unfold State.writeBuffer; split <;> rfl
@[simp] theorem State.writeBuffer_inputs (s : State) (base size : Nat) (f : Nat → Byte) : (s.writeBuffer base size f).inputs = s.inputs := by
  unfold State.writeBuffer; split <;> rfl
@[simp] theorem State.writeBuffer_reply (s : State) (base size : Nat) (f : Nat → Byte) : (s.writeBuffer base size f).reply = s.reply := by
  unfold State.writeBuffer; split <;> rfl
@[simp] theorem State.writeBuffer_disturbed (s : State) (base size : Nat) (f : Nat → Byte) : (s.writeBuffer base size f).disturbed = s.disturbed := by
  unfold State.writeBuffer; split <;> rfl
@[simp] theorem State.writeBuffer_unseen (s : State) (base size : Nat) (f : Nat → Byte) : (s.writeBuffer base size f).unseen = s.unseen := by
  unfold State.writeBuffer; split <;> rfl

/-- A buffer write of an undisturbed command stores what the command computes. -/
theorem State.writeBuffer_mem (s : State) (base size : Nat) (f : Nat → Byte) (h : s.disturbed = false) :
    (s.writeBuffer base size f).mem = Memory.fill s.mem base f size := by simp [State.writeBuffer, h]

/-- A buffer write of a disturbed command stores free values. -/
theorem State.writeBuffer_eq_forget (s : State) (base size : Nat) (f : Nat → Byte) (h : s.disturbed = true) :
    s.writeBuffer base size f = s.forget base size := by simp [State.writeBuffer, h]

@[simp] theorem State.swapBases_ctrl (s : State) : (s.swapBases).ctrl = s.ctrl := rfl
@[simp] theorem State.swapBases_status (s : State) : (s.swapBases).status = s.status := rfl
@[simp] theorem State.swapBases_cmd (s : State) : (s.swapBases).cmd = s.cmd := rfl
@[simp] theorem State.swapBases_imgBase (s : State) : (s.swapBases).imgBase = s.outBase := rfl
@[simp] theorem State.swapBases_imgWidth (s : State) : (s.swapBases).imgWidth = s.imgWidth := rfl
@[simp] theorem State.swapBases_imgHeight (s : State) : (s.swapBases).imgHeight = s.imgHeight := rfl
@[simp] theorem State.swapBases_imgDepth (s : State) : (s.swapBases).imgDepth = s.imgDepth := rfl
@[simp] theorem State.swapBases_outBase (s : State) : (s.swapBases).outBase = s.imgBase := rfl
@[simp] theorem State.swapBases_krnBase (s : State) : (s.swapBases).krnBase = s.krnBase := rfl
@[simp] theorem State.swapBases_krnSize (s : State) : (s.swapBases).krnSize = s.krnSize := rfl
@[simp] theorem State.swapBases_krnDiv (s : State) : (s.swapBases).krnDiv = s.krnDiv := rfl
@[simp] theorem State.swapBases_mem (s : State) : (s.swapBases).mem = s.mem := rfl
@[simp] theorem State.swapBases_memLast (s : State) : (s.swapBases).memLast = s.memLast := rfl
@[simp] theorem State.swapBases_inputs (s : State) : (s.swapBases).inputs = s.inputs := rfl
@[simp] theorem State.swapBases_reply (s : State) : (s.swapBases).reply = s.reply := rfl
@[simp] theorem State.swapBases_disturbed (s : State) : (s.swapBases).disturbed = s.disturbed := rfl
@[simp] theorem State.swapBases_unseen (s : State) : (s.swapBases).unseen = s.unseen := rfl
@[simp] theorem State.swapBases_freeIdx (s : State) : (s.swapBases).freeIdx = s.freeIdx := rfl

@[simp] theorem State.issue_ctrl (s : State) (v : Word) : (s.issue v).ctrl = s.ctrl := rfl
@[simp] theorem State.issue_status (s : State) (v : Word) : (s.issue v).status = Status.issued := rfl
@[simp] theorem State.issue_cmd (s : State) (v : Word) : (s.issue v).cmd = v := rfl
@[simp] theorem State.issue_imgBase (s : State) (v : Word) : (s.issue v).imgBase = s.imgBase := rfl
@[simp] theorem State.issue_imgWidth (s : State) (v : Word) : (s.issue v).imgWidth = s.imgWidth := rfl
@[simp] theorem State.issue_imgHeight (s : State) (v : Word) : (s.issue v).imgHeight = s.imgHeight := rfl
@[simp] theorem State.issue_imgDepth (s : State) (v : Word) : (s.issue v).imgDepth = s.imgDepth := rfl
@[simp] theorem State.issue_outBase (s : State) (v : Word) : (s.issue v).outBase = s.outBase := rfl
@[simp] theorem State.issue_krnBase (s : State) (v : Word) : (s.issue v).krnBase = s.krnBase := rfl
@[simp] theorem State.issue_krnSize (s : State) (v : Word) : (s.issue v).krnSize = s.krnSize := rfl
@[simp] theorem State.issue_krnDiv (s : State) (v : Word) : (s.issue v).krnDiv = s.krnDiv := rfl
@[simp] theorem State.issue_mem (s : State) (v : Word) : (s.issue v).mem = s.mem := rfl
@[simp] theorem State.issue_memLast (s : State) (v : Word) : (s.issue v).memLast = s.memLast := rfl
@[simp] theorem State.issue_inputs (s : State) (v : Word) : (s.issue v).inputs = s.inputs := rfl
@[simp] theorem State.issue_reply (s : State) (v : Word) : (s.issue v).reply = s.reply := rfl
@[simp] theorem State.issue_disturbed (s : State) (v : Word) : (s.issue v).disturbed = false := rfl
@[simp] theorem State.issue_unseen (s : State) (v : Word) : (s.issue v).unseen = s.unseen := rfl
@[simp] theorem State.issue_freeIdx (s : State) (v : Word) : (s.issue v).freeIdx = s.freeIdx := rfl

@[simp] theorem State.complete_ctrl (s : State) (e : ErrCode) : (s.complete e).ctrl = s.ctrl := rfl
@[simp] theorem State.complete_status (s : State) (e : ErrCode) : (s.complete e).status = Status.completed e := rfl
@[simp] theorem State.complete_cmd (s : State) (e : ErrCode) : (s.complete e).cmd = s.cmd := rfl
@[simp] theorem State.complete_imgBase (s : State) (e : ErrCode) : (s.complete e).imgBase = s.imgBase := rfl
@[simp] theorem State.complete_imgWidth (s : State) (e : ErrCode) : (s.complete e).imgWidth = s.imgWidth := rfl
@[simp] theorem State.complete_imgHeight (s : State) (e : ErrCode) : (s.complete e).imgHeight = s.imgHeight := rfl
@[simp] theorem State.complete_imgDepth (s : State) (e : ErrCode) : (s.complete e).imgDepth = s.imgDepth := rfl
@[simp] theorem State.complete_outBase (s : State) (e : ErrCode) : (s.complete e).outBase = s.outBase := rfl
@[simp] theorem State.complete_krnBase (s : State) (e : ErrCode) : (s.complete e).krnBase = s.krnBase := rfl
@[simp] theorem State.complete_krnSize (s : State) (e : ErrCode) : (s.complete e).krnSize = s.krnSize := rfl
@[simp] theorem State.complete_krnDiv (s : State) (e : ErrCode) : (s.complete e).krnDiv = s.krnDiv := rfl
@[simp] theorem State.complete_mem (s : State) (e : ErrCode) : (s.complete e).mem = s.mem := rfl
@[simp] theorem State.complete_memLast (s : State) (e : ErrCode) : (s.complete e).memLast = s.memLast := rfl
@[simp] theorem State.complete_inputs (s : State) (e : ErrCode) : (s.complete e).inputs = s.inputs := rfl
@[simp] theorem State.complete_reply (s : State) (e : ErrCode) : (s.complete e).reply = s.reply := rfl
@[simp] theorem State.complete_disturbed (s : State) (e : ErrCode) : (s.complete e).disturbed = false := rfl
@[simp] theorem State.complete_unseen (s : State) (e : ErrCode) : (s.complete e).unseen = s.unseen := rfl
@[simp] theorem State.complete_freeIdx (s : State) (e : ErrCode) : (s.complete e).freeIdx = s.freeIdx := rfl

@[simp] theorem State.raiseError_ctrl (s : State) (e : ErrCode) : (s.raiseError e).ctrl = s.ctrl := rfl
@[simp] theorem State.raiseError_status (s : State) (e : ErrCode) : (s.raiseError e).status = Status.completed e := rfl
@[simp] theorem State.raiseError_cmd (s : State) (e : ErrCode) : (s.raiseError e).cmd = s.cmd := rfl
@[simp] theorem State.raiseError_imgBase (s : State) (e : ErrCode) : (s.raiseError e).imgBase = s.imgBase := rfl
@[simp] theorem State.raiseError_imgWidth (s : State) (e : ErrCode) : (s.raiseError e).imgWidth = s.imgWidth := rfl
@[simp] theorem State.raiseError_imgHeight (s : State) (e : ErrCode) : (s.raiseError e).imgHeight = s.imgHeight := rfl
@[simp] theorem State.raiseError_imgDepth (s : State) (e : ErrCode) : (s.raiseError e).imgDepth = s.imgDepth := rfl
@[simp] theorem State.raiseError_outBase (s : State) (e : ErrCode) : (s.raiseError e).outBase = s.outBase := rfl
@[simp] theorem State.raiseError_krnBase (s : State) (e : ErrCode) : (s.raiseError e).krnBase = s.krnBase := rfl
@[simp] theorem State.raiseError_krnSize (s : State) (e : ErrCode) : (s.raiseError e).krnSize = s.krnSize := rfl
@[simp] theorem State.raiseError_krnDiv (s : State) (e : ErrCode) : (s.raiseError e).krnDiv = s.krnDiv := rfl
@[simp] theorem State.raiseError_mem (s : State) (e : ErrCode) : (s.raiseError e).mem = s.mem := rfl
@[simp] theorem State.raiseError_memLast (s : State) (e : ErrCode) : (s.raiseError e).memLast = s.memLast := rfl
@[simp] theorem State.raiseError_inputs (s : State) (e : ErrCode) : (s.raiseError e).inputs = s.inputs := rfl
@[simp] theorem State.raiseError_reply (s : State) (e : ErrCode) : (s.raiseError e).reply = s.reply := rfl
@[simp] theorem State.raiseError_disturbed (s : State) (e : ErrCode) : (s.raiseError e).disturbed = false := rfl
@[simp] theorem State.raiseError_unseen (s : State) (e : ErrCode) : (s.raiseError e).unseen = s.unseen := rfl
@[simp] theorem State.raiseError_freeIdx (s : State) (e : ErrCode) : (s.raiseError e).freeIdx = s.freeIdx := rfl

@[simp] theorem State.acknowledge_ctrl (s : State) : (s.acknowledge).ctrl = s.ctrl := rfl
@[simp] theorem State.acknowledge_status (s : State) : (s.acknowledge).status = s.status.acknowledged := rfl
@[simp] theorem State.acknowledge_cmd (s : State) : (s.acknowledge).cmd = s.cmd := rfl
@[simp] theorem State.acknowledge_imgBase (s : State) : (s.acknowledge).imgBase = s.imgBase := rfl
@[simp] theorem State.acknowledge_imgWidth (s : State) : (s.acknowledge).imgWidth = s.imgWidth := rfl
@[simp] theorem State.acknowledge_imgHeight (s : State) : (s.acknowledge).imgHeight = s.imgHeight := rfl
@[simp] theorem State.acknowledge_imgDepth (s : State) : (s.acknowledge).imgDepth = s.imgDepth := rfl
@[simp] theorem State.acknowledge_outBase (s : State) : (s.acknowledge).outBase = s.outBase := rfl
@[simp] theorem State.acknowledge_krnBase (s : State) : (s.acknowledge).krnBase = s.krnBase := rfl
@[simp] theorem State.acknowledge_krnSize (s : State) : (s.acknowledge).krnSize = s.krnSize := rfl
@[simp] theorem State.acknowledge_krnDiv (s : State) : (s.acknowledge).krnDiv = s.krnDiv := rfl
@[simp] theorem State.acknowledge_mem (s : State) : (s.acknowledge).mem = s.mem := rfl
@[simp] theorem State.acknowledge_memLast (s : State) : (s.acknowledge).memLast = s.memLast := rfl
@[simp] theorem State.acknowledge_inputs (s : State) : (s.acknowledge).inputs = s.inputs := rfl
@[simp] theorem State.acknowledge_reply (s : State) : (s.acknowledge).reply = s.reply := rfl
@[simp] theorem State.acknowledge_disturbed (s : State) : (s.acknowledge).disturbed = s.disturbed := rfl
@[simp] theorem State.acknowledge_unseen (s : State) : (s.acknowledge).unseen = s.unseen := rfl
@[simp] theorem State.acknowledge_freeIdx (s : State) : (s.acknowledge).freeIdx = s.freeIdx := rfl

@[simp] theorem State.seeStatus_ctrl (s : State) : (s.seeStatus).ctrl = s.ctrl := rfl
@[simp] theorem State.seeStatus_status (s : State) : (s.seeStatus).status = s.status := rfl
@[simp] theorem State.seeStatus_cmd (s : State) : (s.seeStatus).cmd = s.cmd := rfl
@[simp] theorem State.seeStatus_imgBase (s : State) : (s.seeStatus).imgBase = s.imgBase := rfl
@[simp] theorem State.seeStatus_imgWidth (s : State) : (s.seeStatus).imgWidth = s.imgWidth := rfl
@[simp] theorem State.seeStatus_imgHeight (s : State) : (s.seeStatus).imgHeight = s.imgHeight := rfl
@[simp] theorem State.seeStatus_imgDepth (s : State) : (s.seeStatus).imgDepth = s.imgDepth := rfl
@[simp] theorem State.seeStatus_outBase (s : State) : (s.seeStatus).outBase = s.outBase := rfl
@[simp] theorem State.seeStatus_krnBase (s : State) : (s.seeStatus).krnBase = s.krnBase := rfl
@[simp] theorem State.seeStatus_krnSize (s : State) : (s.seeStatus).krnSize = s.krnSize := rfl
@[simp] theorem State.seeStatus_krnDiv (s : State) : (s.seeStatus).krnDiv = s.krnDiv := rfl
@[simp] theorem State.seeStatus_mem (s : State) : (s.seeStatus).mem = s.mem := rfl
@[simp] theorem State.seeStatus_memLast (s : State) : (s.seeStatus).memLast = s.memLast := rfl
@[simp] theorem State.seeStatus_inputs (s : State) : (s.seeStatus).inputs = s.inputs := rfl
@[simp] theorem State.seeStatus_reply (s : State) : (s.seeStatus).reply = s.reply := rfl
@[simp] theorem State.seeStatus_disturbed (s : State) : (s.seeStatus).disturbed = s.disturbed := rfl
@[simp] theorem State.seeStatus_unseen (s : State) : (s.seeStatus).unseen = if s.status.busy then s.unseen else [] := rfl
@[simp] theorem State.seeStatus_freeIdx (s : State) : (s.seeStatus).freeIdx = s.freeIdx := rfl

@[simp] theorem State.hostReadReg_ctrl (s : State) (r : Reg) : (s.hostReadReg r).ctrl = s.ctrl := by
  cases r <;> rfl
@[simp] theorem State.hostReadReg_status (s : State) (r : Reg) : (s.hostReadReg r).status = s.status := by
  cases r <;> rfl
@[simp] theorem State.hostReadReg_cmd (s : State) (r : Reg) : (s.hostReadReg r).cmd = s.cmd := by
  cases r <;> rfl
@[simp] theorem State.hostReadReg_imgBase (s : State) (r : Reg) : (s.hostReadReg r).imgBase = s.imgBase := by
  cases r <;> rfl
@[simp] theorem State.hostReadReg_imgWidth (s : State) (r : Reg) : (s.hostReadReg r).imgWidth = s.imgWidth := by
  cases r <;> rfl
@[simp] theorem State.hostReadReg_imgHeight (s : State) (r : Reg) : (s.hostReadReg r).imgHeight = s.imgHeight := by
  cases r <;> rfl
@[simp] theorem State.hostReadReg_imgDepth (s : State) (r : Reg) : (s.hostReadReg r).imgDepth = s.imgDepth := by
  cases r <;> rfl
@[simp] theorem State.hostReadReg_outBase (s : State) (r : Reg) : (s.hostReadReg r).outBase = s.outBase := by
  cases r <;> rfl
@[simp] theorem State.hostReadReg_krnBase (s : State) (r : Reg) : (s.hostReadReg r).krnBase = s.krnBase := by
  cases r <;> rfl
@[simp] theorem State.hostReadReg_krnSize (s : State) (r : Reg) : (s.hostReadReg r).krnSize = s.krnSize := by
  cases r <;> rfl
@[simp] theorem State.hostReadReg_krnDiv (s : State) (r : Reg) : (s.hostReadReg r).krnDiv = s.krnDiv := by
  cases r <;> rfl
@[simp] theorem State.hostReadReg_mem (s : State) (r : Reg) : (s.hostReadReg r).mem = s.mem := by
  cases r <;> rfl
@[simp] theorem State.hostReadReg_memLast (s : State) (r : Reg) : (s.hostReadReg r).memLast = s.memLast := by
  cases r <;> rfl
@[simp] theorem State.hostReadReg_inputs (s : State) (r : Reg) : (s.hostReadReg r).inputs = s.inputs := by
  cases r <;> rfl
@[simp] theorem State.hostReadReg_reply (s : State) (r : Reg) : (s.hostReadReg r).reply = some (s.readReg r) := by
  cases r <;> rfl
@[simp] theorem State.hostReadReg_disturbed (s : State) (r : Reg) : (s.hostReadReg r).disturbed = s.disturbed := by
  cases r <;> rfl
@[simp] theorem State.hostReadReg_freeIdx (s : State) (r : Reg) : (s.hostReadReg r).freeIdx = s.freeIdx := by
  cases r <;> rfl
@[simp] theorem State.hostReadReg_unseen (s : State) (r : Reg) :
    (s.hostReadReg r).unseen = if r = .status ∧ s.status.busy = false then [] else s.unseen := by
  cases r <;> cases h : s.status.busy <;> simp [State.hostReadReg, State.seeStatus, h]

@[simp] theorem State.poll_ctrl (s : State) : (s.poll).ctrl = s.ctrl := rfl
@[simp] theorem State.poll_status (s : State) : (s.poll).status = s.status := rfl
@[simp] theorem State.poll_cmd (s : State) : (s.poll).cmd = s.cmd := rfl
@[simp] theorem State.poll_imgBase (s : State) : (s.poll).imgBase = s.imgBase := rfl
@[simp] theorem State.poll_imgWidth (s : State) : (s.poll).imgWidth = s.imgWidth := rfl
@[simp] theorem State.poll_imgHeight (s : State) : (s.poll).imgHeight = s.imgHeight := rfl
@[simp] theorem State.poll_imgDepth (s : State) : (s.poll).imgDepth = s.imgDepth := rfl
@[simp] theorem State.poll_outBase (s : State) : (s.poll).outBase = s.outBase := rfl
@[simp] theorem State.poll_krnBase (s : State) : (s.poll).krnBase = s.krnBase := rfl
@[simp] theorem State.poll_krnSize (s : State) : (s.poll).krnSize = s.krnSize := rfl
@[simp] theorem State.poll_krnDiv (s : State) : (s.poll).krnDiv = s.krnDiv := rfl
@[simp] theorem State.poll_mem (s : State) : (s.poll).mem = s.mem := rfl
@[simp] theorem State.poll_memLast (s : State) : (s.poll).memLast = s.memLast := rfl
@[simp] theorem State.poll_inputs (s : State) : (s.poll).inputs = if s.status.busy then .engine :: .wait :: s.inputs else s.inputs := rfl
@[simp] theorem State.poll_reply (s : State) : (s.poll).reply = some s.status.word := rfl
@[simp] theorem State.poll_disturbed (s : State) : (s.poll).disturbed = s.disturbed := rfl
@[simp] theorem State.poll_unseen (s : State) : (s.poll).unseen = if s.status.busy then s.unseen else [] := rfl
@[simp] theorem State.poll_freeIdx (s : State) : (s.poll).freeIdx = s.freeIdx := rfl

@[simp] theorem State.applyReset_ctrl (s : State) : (s.applyReset).ctrl = ⟨false⟩ := rfl
@[simp] theorem State.applyReset_status (s : State) : (s.applyReset).status = Status.idle := rfl
@[simp] theorem State.applyReset_cmd (s : State) : (s.applyReset).cmd = 0#32 := rfl
@[simp] theorem State.applyReset_imgBase (s : State) : (s.applyReset).imgBase = 0#32 := rfl
@[simp] theorem State.applyReset_imgWidth (s : State) : (s.applyReset).imgWidth = 0#32 := rfl
@[simp] theorem State.applyReset_imgHeight (s : State) : (s.applyReset).imgHeight = 0#32 := rfl
@[simp] theorem State.applyReset_imgDepth (s : State) : (s.applyReset).imgDepth = 0#32 := rfl
@[simp] theorem State.applyReset_outBase (s : State) : (s.applyReset).outBase = 0#32 := rfl
@[simp] theorem State.applyReset_krnBase (s : State) : (s.applyReset).krnBase = 0#32 := rfl
@[simp] theorem State.applyReset_krnSize (s : State) : (s.applyReset).krnSize = 0#32 := rfl
@[simp] theorem State.applyReset_krnDiv (s : State) : (s.applyReset).krnDiv = 0#32 := rfl
@[simp] theorem State.applyReset_mem (s : State) : (s.applyReset).mem = s.abandon.mem := rfl
@[simp] theorem State.applyReset_memLast (s : State) : (s.applyReset).memLast = s.memLast := rfl
@[simp] theorem State.applyReset_inputs (s : State) : (s.applyReset).inputs = s.inputs := rfl
@[simp] theorem State.applyReset_reply (s : State) : (s.applyReset).reply = s.reply := rfl
@[simp] theorem State.applyReset_disturbed (s : State) : (s.applyReset).disturbed = false := rfl
@[simp] theorem State.applyReset_unseen (s : State) : (s.applyReset).unseen = s.unseen := rfl
@[simp] theorem State.applyReset_freeIdx (s : State) : (s.applyReset).freeIdx = s.abandon.freeIdx := rfl

@[simp] theorem State.withFetchWord_ctrl (s : State) (nbits v : Nat) : (s.withFetchWord nbits v).ctrl = s.ctrl := rfl
@[simp] theorem State.withFetchWord_status (s : State) (nbits v : Nat) : (s.withFetchWord nbits v).status = Status.issued := rfl
@[simp] theorem State.withFetchWord_cmd (s : State) (nbits v : Nat) : (s.withFetchWord nbits v).cmd = BitVec.ofNat 32 (v % 2 ^ nbits) := rfl
@[simp] theorem State.withFetchWord_imgBase (s : State) (nbits v : Nat) : (s.withFetchWord nbits v).imgBase = s.imgBase := rfl
@[simp] theorem State.withFetchWord_imgWidth (s : State) (nbits v : Nat) : (s.withFetchWord nbits v).imgWidth = s.imgWidth := rfl
@[simp] theorem State.withFetchWord_imgHeight (s : State) (nbits v : Nat) : (s.withFetchWord nbits v).imgHeight = s.imgHeight := rfl
@[simp] theorem State.withFetchWord_imgDepth (s : State) (nbits v : Nat) : (s.withFetchWord nbits v).imgDepth = s.imgDepth := rfl
@[simp] theorem State.withFetchWord_outBase (s : State) (nbits v : Nat) : (s.withFetchWord nbits v).outBase = s.outBase := rfl
@[simp] theorem State.withFetchWord_krnBase (s : State) (nbits v : Nat) : (s.withFetchWord nbits v).krnBase = s.krnBase := rfl
@[simp] theorem State.withFetchWord_krnSize (s : State) (nbits v : Nat) : (s.withFetchWord nbits v).krnSize = s.krnSize := rfl
@[simp] theorem State.withFetchWord_krnDiv (s : State) (nbits v : Nat) : (s.withFetchWord nbits v).krnDiv = s.krnDiv := rfl
@[simp] theorem State.withFetchWord_mem (s : State) (nbits v : Nat) : (s.withFetchWord nbits v).mem = s.mem := rfl
@[simp] theorem State.withFetchWord_memLast (s : State) (nbits v : Nat) : (s.withFetchWord nbits v).memLast = s.memLast := rfl
@[simp] theorem State.withFetchWord_inputs (s : State) (nbits v : Nat) : (s.withFetchWord nbits v).inputs = .engine :: s.inputs := rfl
@[simp] theorem State.withFetchWord_reply (s : State) (nbits v : Nat) : (s.withFetchWord nbits v).reply = s.reply := rfl
@[simp] theorem State.withFetchWord_disturbed (s : State) (nbits v : Nat) : (s.withFetchWord nbits v).disturbed = false := rfl
@[simp] theorem State.withFetchWord_unseen (s : State) (nbits v : Nat) : (s.withFetchWord nbits v).unseen = s.unseen := rfl
@[simp] theorem State.withFetchWord_freeIdx (s : State) (nbits v : Nat) : (s.withFetchWord nbits v).freeIdx = s.freeIdx := rfl

theorem State.forgetTargets_frame (s : State) (bs : List Buffers) :
    s.forgetTargets bs = { s with mem := (s.forgetTargets bs).mem, freeIdx := (s.forgetTargets bs).freeIdx } := by
  induction bs generalizing s with
  | nil => rfl
  | cons b bs ih => simp only [State.forgetTargets]; rw [ih]; rfl

@[simp] theorem State.forgetTargets_ctrl (s : State) (bs : List Buffers) : (s.forgetTargets bs).ctrl = s.ctrl := by
  rw [State.forgetTargets_frame]
@[simp] theorem State.forgetTargets_status (s : State) (bs : List Buffers) : (s.forgetTargets bs).status = s.status := by
  rw [State.forgetTargets_frame]
@[simp] theorem State.forgetTargets_cmd (s : State) (bs : List Buffers) : (s.forgetTargets bs).cmd = s.cmd := by
  rw [State.forgetTargets_frame]
@[simp] theorem State.forgetTargets_imgBase (s : State) (bs : List Buffers) : (s.forgetTargets bs).imgBase = s.imgBase := by
  rw [State.forgetTargets_frame]
@[simp] theorem State.forgetTargets_imgWidth (s : State) (bs : List Buffers) : (s.forgetTargets bs).imgWidth = s.imgWidth := by
  rw [State.forgetTargets_frame]
@[simp] theorem State.forgetTargets_imgHeight (s : State) (bs : List Buffers) : (s.forgetTargets bs).imgHeight = s.imgHeight := by
  rw [State.forgetTargets_frame]
@[simp] theorem State.forgetTargets_imgDepth (s : State) (bs : List Buffers) : (s.forgetTargets bs).imgDepth = s.imgDepth := by
  rw [State.forgetTargets_frame]
@[simp] theorem State.forgetTargets_outBase (s : State) (bs : List Buffers) : (s.forgetTargets bs).outBase = s.outBase := by
  rw [State.forgetTargets_frame]
@[simp] theorem State.forgetTargets_krnBase (s : State) (bs : List Buffers) : (s.forgetTargets bs).krnBase = s.krnBase := by
  rw [State.forgetTargets_frame]
@[simp] theorem State.forgetTargets_krnSize (s : State) (bs : List Buffers) : (s.forgetTargets bs).krnSize = s.krnSize := by
  rw [State.forgetTargets_frame]
@[simp] theorem State.forgetTargets_krnDiv (s : State) (bs : List Buffers) : (s.forgetTargets bs).krnDiv = s.krnDiv := by
  rw [State.forgetTargets_frame]
@[simp] theorem State.forgetTargets_memLast (s : State) (bs : List Buffers) : (s.forgetTargets bs).memLast = s.memLast := by
  rw [State.forgetTargets_frame]
@[simp] theorem State.forgetTargets_inputs (s : State) (bs : List Buffers) : (s.forgetTargets bs).inputs = s.inputs := by
  rw [State.forgetTargets_frame]
@[simp] theorem State.forgetTargets_reply (s : State) (bs : List Buffers) : (s.forgetTargets bs).reply = s.reply := by
  rw [State.forgetTargets_frame]
@[simp] theorem State.forgetTargets_disturbed (s : State) (bs : List Buffers) : (s.forgetTargets bs).disturbed = s.disturbed := by
  rw [State.forgetTargets_frame]
@[simp] theorem State.forgetTargets_unseen (s : State) (bs : List Buffers) : (s.forgetTargets bs).unseen = s.unseen := by
  rw [State.forgetTargets_frame]

@[simp] theorem State.forget_W (s : State) (base size : Nat) : (s.forget base size).W = s.W := rfl
@[simp] theorem State.forget_H (s : State) (base size : Nat) : (s.forget base size).H = s.H := rfl
@[simp] theorem State.forget_depth (s : State) (base size : Nat) : (s.forget base size).depth = s.depth := rfl
@[simp] theorem State.forget_bpp (s : State) (base size : Nat) : (s.forget base size).bpp = s.bpp := rfl
@[simp] theorem State.forget_npix (s : State) (base size : Nat) : (s.forget base size).npix = s.npix := rfl
@[simp] theorem State.forget_isize (s : State) (base size : Nat) : (s.forget base size).isize = s.isize := rfl
@[simp] theorem State.forget_ib (s : State) (base size : Nat) : (s.forget base size).ib = s.ib := rfl
@[simp] theorem State.forget_ob (s : State) (base size : Nat) : (s.forget base size).ob = s.ob := rfl
@[simp] theorem State.forget_kb (s : State) (base size : Nat) : (s.forget base size).kb = s.kb := rfl
@[simp] theorem State.forget_kn (s : State) (base size : Nat) : (s.forget base size).kn = s.kn := rfl
@[simp] theorem State.forget_kd (s : State) (base size : Nat) : (s.forget base size).kd = s.kd := rfl
@[simp] theorem State.forget_kbytes (s : State) (base size : Nat) : (s.forget base size).kbytes = s.kbytes := rfl
@[simp] theorem State.forget_koff (s : State) (base size : Nat) : (s.forget base size).koff = s.koff := rfl
@[simp] theorem State.forget_memBytes (s : State) (base size : Nat) : (s.forget base size).memBytes = s.memBytes := rfl

@[simp] theorem State.writeBuffer_W (s : State) (base size : Nat) (f : Nat → Byte) : (s.writeBuffer base size f).W = s.W := by
  unfold State.writeBuffer; split <;> rfl
@[simp] theorem State.writeBuffer_H (s : State) (base size : Nat) (f : Nat → Byte) : (s.writeBuffer base size f).H = s.H := by
  unfold State.writeBuffer; split <;> rfl
@[simp] theorem State.writeBuffer_depth (s : State) (base size : Nat) (f : Nat → Byte) : (s.writeBuffer base size f).depth = s.depth := by
  unfold State.writeBuffer; split <;> rfl
@[simp] theorem State.writeBuffer_bpp (s : State) (base size : Nat) (f : Nat → Byte) : (s.writeBuffer base size f).bpp = s.bpp := by
  unfold State.writeBuffer; split <;> rfl
@[simp] theorem State.writeBuffer_npix (s : State) (base size : Nat) (f : Nat → Byte) : (s.writeBuffer base size f).npix = s.npix := by
  unfold State.writeBuffer; split <;> rfl
@[simp] theorem State.writeBuffer_isize (s : State) (base size : Nat) (f : Nat → Byte) : (s.writeBuffer base size f).isize = s.isize := by
  unfold State.writeBuffer; split <;> rfl
@[simp] theorem State.writeBuffer_ib (s : State) (base size : Nat) (f : Nat → Byte) : (s.writeBuffer base size f).ib = s.ib := by
  unfold State.writeBuffer; split <;> rfl
@[simp] theorem State.writeBuffer_ob (s : State) (base size : Nat) (f : Nat → Byte) : (s.writeBuffer base size f).ob = s.ob := by
  unfold State.writeBuffer; split <;> rfl
@[simp] theorem State.writeBuffer_kb (s : State) (base size : Nat) (f : Nat → Byte) : (s.writeBuffer base size f).kb = s.kb := by
  unfold State.writeBuffer; split <;> rfl
@[simp] theorem State.writeBuffer_kn (s : State) (base size : Nat) (f : Nat → Byte) : (s.writeBuffer base size f).kn = s.kn := by
  unfold State.writeBuffer; split <;> rfl
@[simp] theorem State.writeBuffer_kd (s : State) (base size : Nat) (f : Nat → Byte) : (s.writeBuffer base size f).kd = s.kd := by
  unfold State.writeBuffer; split <;> rfl
@[simp] theorem State.writeBuffer_kbytes (s : State) (base size : Nat) (f : Nat → Byte) : (s.writeBuffer base size f).kbytes = s.kbytes := by
  unfold State.writeBuffer; split <;> rfl
@[simp] theorem State.writeBuffer_koff (s : State) (base size : Nat) (f : Nat → Byte) : (s.writeBuffer base size f).koff = s.koff := by
  unfold State.writeBuffer; split <;> rfl
@[simp] theorem State.writeBuffer_memBytes (s : State) (base size : Nat) (f : Nat → Byte) : (s.writeBuffer base size f).memBytes = s.memBytes := by
  unfold State.writeBuffer; split <;> rfl

@[simp] theorem State.complete_W (s : State) (e : ErrCode) : (s.complete e).W = s.W := rfl
@[simp] theorem State.complete_H (s : State) (e : ErrCode) : (s.complete e).H = s.H := rfl
@[simp] theorem State.complete_depth (s : State) (e : ErrCode) : (s.complete e).depth = s.depth := rfl
@[simp] theorem State.complete_bpp (s : State) (e : ErrCode) : (s.complete e).bpp = s.bpp := rfl
@[simp] theorem State.complete_npix (s : State) (e : ErrCode) : (s.complete e).npix = s.npix := rfl
@[simp] theorem State.complete_isize (s : State) (e : ErrCode) : (s.complete e).isize = s.isize := rfl
@[simp] theorem State.complete_ib (s : State) (e : ErrCode) : (s.complete e).ib = s.ib := rfl
@[simp] theorem State.complete_ob (s : State) (e : ErrCode) : (s.complete e).ob = s.ob := rfl
@[simp] theorem State.complete_kb (s : State) (e : ErrCode) : (s.complete e).kb = s.kb := rfl
@[simp] theorem State.complete_kn (s : State) (e : ErrCode) : (s.complete e).kn = s.kn := rfl
@[simp] theorem State.complete_kd (s : State) (e : ErrCode) : (s.complete e).kd = s.kd := rfl
@[simp] theorem State.complete_kbytes (s : State) (e : ErrCode) : (s.complete e).kbytes = s.kbytes := rfl
@[simp] theorem State.complete_koff (s : State) (e : ErrCode) : (s.complete e).koff = s.koff := rfl
@[simp] theorem State.complete_memBytes (s : State) (e : ErrCode) : (s.complete e).memBytes = s.memBytes := rfl

@[simp] theorem State.issue_W (s : State) (v : Word) : (s.issue v).W = s.W := rfl
@[simp] theorem State.issue_H (s : State) (v : Word) : (s.issue v).H = s.H := rfl
@[simp] theorem State.issue_depth (s : State) (v : Word) : (s.issue v).depth = s.depth := rfl
@[simp] theorem State.issue_bpp (s : State) (v : Word) : (s.issue v).bpp = s.bpp := rfl
@[simp] theorem State.issue_npix (s : State) (v : Word) : (s.issue v).npix = s.npix := rfl
@[simp] theorem State.issue_isize (s : State) (v : Word) : (s.issue v).isize = s.isize := rfl
@[simp] theorem State.issue_ib (s : State) (v : Word) : (s.issue v).ib = s.ib := rfl
@[simp] theorem State.issue_ob (s : State) (v : Word) : (s.issue v).ob = s.ob := rfl
@[simp] theorem State.issue_kb (s : State) (v : Word) : (s.issue v).kb = s.kb := rfl
@[simp] theorem State.issue_kn (s : State) (v : Word) : (s.issue v).kn = s.kn := rfl
@[simp] theorem State.issue_kd (s : State) (v : Word) : (s.issue v).kd = s.kd := rfl
@[simp] theorem State.issue_kbytes (s : State) (v : Word) : (s.issue v).kbytes = s.kbytes := rfl
@[simp] theorem State.issue_koff (s : State) (v : Word) : (s.issue v).koff = s.koff := rfl
@[simp] theorem State.issue_memBytes (s : State) (v : Word) : (s.issue v).memBytes = s.memBytes := rfl

@[simp] theorem State.swapBases_W (s : State) : s.swapBases.W = s.W := rfl
@[simp] theorem State.swapBases_H (s : State) : s.swapBases.H = s.H := rfl
@[simp] theorem State.swapBases_depth (s : State) : s.swapBases.depth = s.depth := rfl
@[simp] theorem State.swapBases_bpp (s : State) : s.swapBases.bpp = s.bpp := rfl
@[simp] theorem State.swapBases_npix (s : State) : s.swapBases.npix = s.npix := rfl
@[simp] theorem State.swapBases_isize (s : State) : s.swapBases.isize = s.isize := rfl
@[simp] theorem State.swapBases_ib (s : State) : s.swapBases.ib = s.ob := rfl
@[simp] theorem State.swapBases_ob (s : State) : s.swapBases.ob = s.ib := rfl
@[simp] theorem State.swapBases_kb (s : State) : s.swapBases.kb = s.kb := rfl
@[simp] theorem State.swapBases_kn (s : State) : s.swapBases.kn = s.kn := rfl
@[simp] theorem State.swapBases_kd (s : State) : s.swapBases.kd = s.kd := rfl
@[simp] theorem State.swapBases_kbytes (s : State) : s.swapBases.kbytes = s.kbytes := rfl
@[simp] theorem State.swapBases_koff (s : State) : s.swapBases.koff = s.koff := rfl
@[simp] theorem State.swapBases_memBytes (s : State) : s.swapBases.memBytes = s.memBytes := rfl

theorem State.memBytes_pos (s : State) : 0 < s.memBytes := Nat.succ_pos _

theorem State.memBytes_le (s : State) : s.memBytes ≤ 2 ^ 32 := s.memLast.isLt

theorem State.bpp_pos (s : State) : 0 < s.bpp := by unfold State.bpp; split <;> omega

end Sys2Proof.Machine
end

