-- ==== Sys2Proof/Laws/Execute.lean ====
section
/-! SUPPORT. The shared operations, said once each: bytes after a buffer write, channel values and rounding, what `Validate`
accepts, and every command as one run of `runCommand`. -/

namespace Sys2Proof.Machine

/-! Bytes and channel values. -/

theorem State.byteAt_of_mem {s t : State} (h : t.mem = s.mem) (a : Nat) : t.byteAt a = s.byteAt a := by
  simp [State.byteAt, h]

theorem State.byteAt_writeBuffer (s : State) (base size : Nat) (f : Nat → Byte) (h : s.disturbed = false) (a : Nat) :
    (s.writeBuffer base size f).byteAt a = if base ≤ a ∧ a < base + size then f (a - base) else s.byteAt a := by
  simp only [State.byteAt, State.writeBuffer_mem _ _ _ _ h, Memory.lookup_fill]
  split <;> rfl

theorem State.byteAt_forget_outside (s : State) {base size a : Nat} (h : ¬ (base ≤ a ∧ a < base + size)) :
    (s.forget base size).byteAt a = s.byteAt a := by
  simp [State.byteAt, Memory.lookup_fill, h]

/-- Disturbed or not, a buffer write leaves every byte outside the buffer alone. -/
theorem State.byteAt_writeBuffer_outside (s : State) {base size a : Nat} (f : Nat → Byte)
    (h : ¬ (base ≤ a ∧ a < base + size)) : (s.writeBuffer base size f).byteAt a = s.byteAt a := by
  cases hd : s.disturbed
  · rw [State.byteAt_writeBuffer _ _ _ _ hd, if_neg h]
  · rw [State.writeBuffer_eq_forget _ _ _ _ hd, State.byteAt_forget_outside _ h]

theorem State.writeBuffer_wf {s : State} (h : s.mem.wf) (base size : Nat) (f : Nat → Byte) :
    (s.writeBuffer base size f).mem.wf := by
  unfold State.writeBuffer; split <;> exact Memory.fill_wf h ..

theorem State.mem_writeBuffer {s : State} {base size : Nat} {f : Nat → Byte} {c : Host.Cell}
    (h : c ∈ (s.writeBuffer base size f).mem) : (base ≤ c.1 ∧ c.1 < base + size) ∨ c ∈ s.mem := by
  unfold State.writeBuffer at h; split at h <;> exact Memory.mem_fill h

theorem State.memRead1_nonneg (s : State) (a : Nat) : 0 ≤ s.memRead1 a := Int.natCast_nonneg _

theorem State.memRead1_le (s : State) (a : Nat) : s.memRead1 a ≤ 255 := by
  have := (s.byteAt a).isLt; unfold State.memRead1; omega

/-- A channel value is stored as itself. -/
theorem toByte_toNat {v : Int} (h0 : 0 ≤ v) (h1 : v ≤ 255) : ((toByte v).toNat : Int) = v := by
  simp only [toByte, BitVec.toNat_ofInt]; omega

theorem toByte_memRead1 (s : State) (a : Nat) : toByte (s.memRead1 a) = s.byteAt a := by
  apply BitVec.eq_of_toNat_eq
  have := toByte_toNat (s.memRead1_nonneg a) (s.memRead1_le a)
  simpa [State.memRead1] using this

/-! Clamping and rounding (00_scope.md R11). -/

theorem clamp_eq (v : Int) : clamp v 0 255 = max 0 (min 255 v) := by unfold clamp; split_ifs <;> omega

theorem clamp_nonneg (v : Int) : 0 ≤ clamp v 0 255 := by rw [clamp_eq]; omega

theorem clamp_le (v : Int) : clamp v 0 255 ≤ 255 := by rw [clamp_eq]; omega

theorem clamp_of_mem {v : Int} (h0 : 0 ≤ v) (h1 : v ≤ 255) : clamp v 0 255 = v := by rw [clamp_eq]; omega

/-- `rnd` of an exact multiple is the quotient. -/
theorem rnd_mul (q b : Int) (hb : 0 < b) : rnd (q * b) b = q := by
  unfold rnd fdiv
  rw [show 2 * (q * b) + b = b + q * (2 * b) by ring, Int.add_mul_ediv_right _ _ (by omega),
    Int.ediv_eq_zero_of_lt hb.le (by omega), zero_add]

/-- `rnd` is monotone in its numerator. -/
theorem rnd_mono {a a' b : Int} (hb : 0 < b) (h : a ≤ a') : rnd a b ≤ rnd a' b :=
  Int.ediv_le_ediv (by omega) (by omega)

/-! `Validate` (40_command_cycle.md R75). -/

/-- What `Validate` accepts, as one conjunction of conditions on the registers. -/
theorem validate_eq_none_iff (i : Instr) (s : State) : validate i s = .none ↔
    depthAccepted i s.depth = true ∧ s.W ≠ 0 ∧ s.H ≠ 0 ∧ s.ib + s.isize ≤ s.memBytes ∧
    (usesKernel i = true → s.kn % 2 = 1 ∧ s.kd ≠ 0 ∧ s.kb % 4 = 0 ∧ s.ob + s.isize ≤ s.memBytes ∧
      s.kb + s.kbytes ≤ s.memBytes ∧ (s.ob + s.isize ≤ s.ib ∨ s.ib + s.isize ≤ s.ob) ∧
      (s.ob + s.isize ≤ s.kb ∨ s.kb + s.kbytes ≤ s.ob)) := by
  unfold validate State.inRange overlap
  cases hk : usesKernel i <;> cases hd : depthAccepted i s.depth <;> simp <;> split_ifs <;> simp <;> omega

/-- The order of the checks: each outcome of `Validate` with the checks that passed before it (40_command_cycle.md R75). -/
theorem validate_cases (i : Instr) (s : State) :
    (validate i s = .format ∧ depthAccepted i s.depth = false) ∨
    (depthAccepted i s.depth = true ∧
      ((validate i s = .dim ∧ (s.W = 0 ∨ s.H = 0)) ∨
      (s.W ≠ 0 ∧ s.H ≠ 0 ∧
        ((validate i s = .ksize ∧ usesKernel i = true ∧ s.kn % 2 = 0) ∨
        ((usesKernel i = true → s.kn % 2 = 1) ∧
          ((validate i s = .kdiv ∧ usesKernel i = true ∧ s.kd = 0) ∨
          ((usesKernel i = true → s.kd ≠ 0) ∧
            ((validate i s = .align ∧ usesKernel i = true ∧ s.kb % 4 ≠ 0) ∨
            ((usesKernel i = true → s.kb % 4 = 0) ∧
              ((validate i s = .range ∧ (s.memBytes < s.ib + s.isize ∨
                  (usesKernel i = true ∧ (s.memBytes < s.ob + s.isize ∨ s.memBytes < s.kb + s.kbytes)))) ∨
              (s.ib + s.isize ≤ s.memBytes ∧
                (usesKernel i = true → s.ob + s.isize ≤ s.memBytes ∧ s.kb + s.kbytes ≤ s.memBytes) ∧
                ((validate i s = .overlap ∧ usesKernel i = true ∧
                  (overlap s.ob s.isize s.ib s.isize = true ∨ overlap s.ob s.isize s.kb s.kbytes = true)) ∨
                validate i s = .none)))))))))))) := by
  unfold validate State.inRange
  cases usesKernel i <;> cases depthAccepted i s.depth <;> simp <;> split_ifs <;> simp <;>
    first | omega | simp_all

/-- `Validate` reads registers alone. -/
theorem validate_congr (i : Instr) {s t : State} (h1 : t.imgBase = s.imgBase) (h2 : t.imgWidth = s.imgWidth)
    (h3 : t.imgHeight = s.imgHeight) (h4 : t.imgDepth = s.imgDepth) (h5 : t.outBase = s.outBase)
    (h6 : t.krnBase = s.krnBase) (h7 : t.krnSize = s.krnSize) (h8 : t.krnDiv = s.krnDiv) (h9 : t.memLast = s.memLast) :
    validate i t = validate i s := by
  cases s; cases t
  simp only at h1 h2 h3 h4 h5 h6 h7 h8 h9
  subst h1 h2 h3 h4 h5 h6 h7 h8 h9
  rfl

/-! Every command is one run of `runCommand`. -/

/-- `Perform(c)` of each command (40_command_cycle.md R74). -/
def performOf : Instr → State → State
  | .neg => performPoint negByte
  | .gray => performPoint grayByte
  | .bright imm => performPoint (brightByte imm)
  | .thresh imm => performPoint (threshByte imm)
  | .conv => performConv
  | .equal => performEqual

theorem exec_eq_runCommand (i : Instr) (s : State) : exec i s = runCommand i (performOf i) s := by cases i <;> rfl

/-- Everything a command can do: refused, it reports an error; else it is performed and completes. -/
theorem exec_cases (i : Instr) (s : State) :
    (validate i s ≠ .none ∧ exec i s = .next (s.raiseError (validate i s))) ∨
    (validate i s = .none ∧
      exec i s = .next { (performOf i s).complete .none with unseen := s.buffersOf i :: s.unseen }) := by
  rw [exec_eq_runCommand]; unfold runCommand
  by_cases h : validate i s = .none
  · exact .inr ⟨h, if_pos h⟩
  · exact .inl ⟨h, if_neg h⟩

/-- What `Perform` may change: memory, the count of free values, and for `CONV` the two bases. -/
theorem performOf_frame (i : Instr) (s : State) :
    performOf i s = { s with
      mem := (performOf i s).mem
      freeIdx := (performOf i s).freeIdx
      imgBase := if i = .conv then s.outBase else s.imgBase
      outBase := if i = .conv then s.imgBase else s.outBase } := by
  cases i <;> simp only [performOf, performPoint, performConv, performEqual, State.writeBuffer, State.swapBases] <;>
    split <;> rfl

/-- `Perform` writes inside the bytes its command may write, and nowhere else. -/
theorem performOf_byteAt_outside (i : Instr) (s : State) {a : Nat}
    (h : ¬ ((s.buffersOf i).writes.1 ≤ a ∧ a < (s.buffersOf i).writes.1 + (s.buffersOf i).writes.2)) :
    (performOf i s).byteAt a = s.byteAt a := by
  cases i <;> exact State.byteAt_writeBuffer_outside s _ h

theorem performOf_wf (i : Instr) {s : State} (h : s.mem.wf) : (performOf i s).mem.wf := by
  cases i <;> exact State.writeBuffer_wf h ..

theorem mem_performOf (i : Instr) {s : State} {c : Host.Cell} (h : c ∈ (performOf i s).mem) :
    ((s.buffersOf i).writes.1 ≤ c.1 ∧ c.1 < (s.buffersOf i).writes.1 + (s.buffersOf i).writes.2) ∨ c ∈ s.mem := by
  cases i <;> exact State.mem_writeBuffer h

/-- The bytes a command writes lie in its destination buffer. -/
theorem State.equalSize_le (s : State) : s.equalSize ≤ s.isize := by unfold State.equalSize; split <;> omega

/-- The destination of an accepted command lies in memory. -/
theorem target_inside (i : Instr) {s : State} (h : validate i s = .none) :
    (s.buffersOf i).target.1 + (s.buffersOf i).target.2 ≤ s.memBytes := by
  obtain ⟨-, -, -, hi, hk⟩ := (validate_eq_none_iff i s).1 h
  cases i <;> first | exact hi | exact (hk rfl).2.2.2.1

theorem writes_in_target (i : Instr) (s : State) :
    (s.buffersOf i).writes.1 = (s.buffersOf i).target.1 ∧ (s.buffersOf i).writes.2 ≤ (s.buffersOf i).target.2 := by
  cases i <;> first | exact ⟨rfl, le_refl _⟩ | exact ⟨rfl, s.equalSize_le⟩

end Sys2Proof.Machine
end

