-- ==== Sys2Proof/Laws/Histogram.lean ====
section
/-! SUPPORT. The histogram, the cumulative distribution and the table of `EQUAL`, said in terms of counts of a list of
luminances. -/

namespace Sys2Proof.Machine

/-- How many luminances of a list are at most `i`. -/
def upTo (ls : List Nat) (i : Nat) : Nat := ls.countP fun x => decide (x ≤ i)

theorem upTo_mono (ls : List Nat) {i j : Nat} (h : i ≤ j) : upTo ls i ≤ upTo ls j :=
  List.countP_mono_left fun x _ hx => by simp only [decide_eq_true_eq] at *; omega

theorem upTo_succ (ls : List Nat) (i : Nat) : upTo ls (i + 1) = upTo ls i + ls.count (i + 1) := by
  induction ls with
  | nil => rfl
  | cons x ls ih =>
    simp only [upTo, List.countP_cons, List.count_cons] at *
    rw [ih]
    by_cases h1 : x ≤ i
    · simp [h1, show x ≤ i + 1 by omega, show x ≠ i + 1 by omega]; omega
    · by_cases h2 : x = i + 1
      · simp [h2]; omega
      · simp [h1, h2, show ¬ x ≤ i + 1 by omega]

theorem upTo_zero (ls : List Nat) : upTo ls 0 = ls.count 0 := by
  induction ls with
  | nil => rfl
  | cons x ls ih => simp only [upTo, List.countP_cons, List.count_cons] at *; rw [ih]; simp

theorem upTo_le_length (ls : List Nat) (i : Nat) : upTo ls i ≤ ls.length := List.countP_le_length

theorem upTo_eq_length {ls : List Nat} {i : Nat} (h : ∀ x ∈ ls, x ≤ i) : upTo ls i = ls.length :=
  List.countP_eq_length.2 fun x hx => by simpa using h x hx

theorem upTo_eq_zero {ls : List Nat} {i : Nat} (h : ∀ x ∈ ls, i < x) : upTo ls i = 0 :=
  List.countP_eq_zero.2 fun x hx => by have := h x hx; simp; omega

/-- The running totals of the buckets from `a` on are the counts up to each of them. -/
theorem runningTotals_counts (ls : List Nat) (a n : Nat) :
    runningTotals (upTo ls a) ((List.range' (a + 1) n).map fun l => ls.count l) =
      (List.range' (a + 1) n).map (upTo ls) := by
  induction n generalizing a with
  | zero => rfl
  | succ n ih =>
    simp only [List.range'_succ, List.map_cons, runningTotals]
    rw [← upTo_succ, ih]

/-- The cumulative distribution is the count up to each level (43_equalization.md R111). -/
theorem cdf_eq_map (ls : List Nat) : cdf ls = (List.range 256).map (upTo ls) := by
  rw [cdf, histogram, List.range_eq_range', show 256 = 255 + 1 from rfl, List.range'_succ]
  simp only [List.map_cons, runningTotals, Nat.zero_add]
  rw [← upTo_zero]
  exact congrArg _ (runningTotals_counts ls 0 255)

theorem cdf_getElem? (ls : List Nat) {i : Nat} (h : i < 256) : (cdf ls)[i]? = some (upTo ls i) := by
  rw [cdf_eq_map]; simp [h]

/-- `cdf_min` is the count up to the smallest luminance (43_equalization.md R112). -/
theorem cdfMin_eq {ls : List Nat} {m : Nat} (hm : m ∈ ls) (hmin : ∀ x ∈ ls, m ≤ x) (h : m < 256) :
    cdfMin ls = upTo ls m := by
  have key : (List.range 256).find? ((fun c => c != 0) ∘ upTo ls) = some m := by
    rw [List.find?_range_eq_some]
    refine ⟨?_, List.mem_range.2 h, fun j hj => ?_⟩
    · have : 0 < upTo ls m := List.countP_pos_iff.2 ⟨m, hm, by simp⟩
      simp; omega
    · have : upTo ls j = 0 := upTo_eq_zero fun x hx => by have := hmin x hx; omega
      simp [this]
  rw [cdfMin, cdf_eq_map, List.find?_map, key]; rfl

theorem equalizedAt_eq (ls : List Nat) (l : Int) (h : l.toNat < 256) :
    equalizedAt ls l = tableEntry ls.length (cdfMin ls) (upTo ls l.toNat) := by
  rw [equalizedAt, equalized, cdf_eq_map]; simp [h]

/-! The luminances of an image. -/

theorem lum_nonneg {r g b : Int} (hr : 0 ≤ r) (hg : 0 ≤ g) (hb : 0 ≤ b) : 0 ≤ lum r g b := by
  unfold lum fdiv; omega

theorem lum_le {r g b : Int} (hr : r ≤ 255) (hg : g ≤ 255) (hb : b ≤ 255) : lum r g b ≤ 255 := by
  unfold lum fdiv; omega

theorem lumAt_nonneg (s : State) (p : Nat) : 0 ≤ s.lumAt p := by
  unfold State.lumAt; split
  · exact s.memRead1_nonneg _
  · exact lum_nonneg (s.memRead1_nonneg _) (s.memRead1_nonneg _) (s.memRead1_nonneg _)

theorem lumAt_le (s : State) (p : Nat) : s.lumAt p ≤ 255 := by
  unfold State.lumAt; split
  · exact s.memRead1_le _
  · exact lum_le (s.memRead1_le _) (s.memRead1_le _) (s.memRead1_le _)

@[simp] theorem lums_length (s : State) : s.lums.length = s.npix := by simp [State.lums]

theorem mem_lums {s : State} {x : Nat} : x ∈ s.lums ↔ ∃ p < s.npix, s.lumAt p = x := by
  simp only [State.lums, List.mem_map, List.mem_range]
  constructor
  · rintro ⟨p, hp, rfl⟩; exact ⟨p, hp, (Int.toNat_of_nonneg (lumAt_nonneg s p)).symm⟩
  · rintro ⟨p, hp, h⟩; exact ⟨p, hp, by rw [h]; rfl⟩

theorem lums_lt {s : State} {x : Nat} (h : x ∈ s.lums) : x < 256 := by
  obtain ⟨p, -, hp⟩ := mem_lums.1 h
  have := lumAt_le s p; omega

/-- The count of pixels up to a level, through the list of luminances. -/
theorem countUpTo_eq (s : State) (l : Nat) : s.countUpTo l = upTo s.lums l := by
  rw [State.countUpTo, ← List.countP_eq_length_filter, upTo, State.lums, List.countP_map]
  refine List.countP_congr fun p _ => ?_
  have := lumAt_nonneg s p
  simp only [Function.comp, decide_eq_true_eq]; omega

theorem countAt_eq (s : State) (l : Nat) : s.countAt l = s.lums.count l := by
  rw [State.countAt, ← List.countP_eq_length_filter, List.count, State.lums, List.countP_map]
  refine List.countP_congr fun p _ => ?_
  have := lumAt_nonneg s p
  simp only [Function.comp, decide_eq_true_eq, beq_iff_eq]; omega

/-- The smallest luminance present, as a member of the list. -/
theorem State.LowestLum.mem {s : State} {m : Nat} (h : s.LowestLum m) : m ∈ s.lums ∧ ∀ x ∈ s.lums, m ≤ x := by
  refine ⟨mem_lums.2 h.1, fun x hx => ?_⟩
  obtain ⟨p, hp, he⟩ := mem_lums.1 hx
  have := h.2 p hp; omega

theorem exists_lowestLum {s : State} (h : 0 < s.npix) : ∃ m : Nat, m < 256 ∧ s.LowestLum m := by
  have hne : ∃ x, x ∈ s.lums := ⟨_, mem_lums.2 ⟨0, h, (Int.toNat_of_nonneg (lumAt_nonneg s 0)).symm⟩⟩
  have hm := Nat.find_spec hne
  refine ⟨Nat.find hne, lums_lt hm, mem_lums.1 hm, fun p hp => ?_⟩
  have h2 : (s.lumAt p).toNat ∈ s.lums := mem_lums.2 ⟨p, hp, (Int.toNat_of_nonneg (lumAt_nonneg s p)).symm⟩
  have h3 := Nat.find_min' hne h2
  have := lumAt_nonneg s p; omega

theorem cdfMin_lums {s : State} {m : Nat} (h : s.LowestLum m) : cdfMin s.lums = s.countUpTo m := by
  obtain ⟨h1, h2⟩ := h.mem
  rw [countUpTo_eq, cdfMin_eq h1 h2 (lums_lt h1)]

/-- The rounded quotient of a table entry, in natural numbers (43_equalization.md R113). -/
theorem tableEntry_eq {n cmin : Nat} (c : Nat) (hm : cmin < n) :
    tableEntry n cmin c = ((2 * ((c - cmin) * 255) + (n - cmin)) / (2 * (n - cmin)) : Nat) := by
  unfold tableEntry rnd fdiv
  dsimp only
  split_ifs with h
  · have : c - cmin = 0 := by omega
    rw [this, Nat.div_eq_of_lt (by omega)]; rfl
  · push_cast [Nat.cast_sub hm.le, Nat.cast_sub (show cmin ≤ c by omega)]
    rfl

theorem tableEntry_mem {n cmin c : Nat} (hc : c ≤ n) (hm : cmin < n) :
    0 ≤ tableEntry n cmin c ∧ tableEntry n cmin c ≤ 255 := by
  rw [tableEntry_eq _ hm]
  refine ⟨Int.natCast_nonneg _, ?_⟩
  have : (2 * ((c - cmin) * 255) + (n - cmin)) / (2 * (n - cmin)) < 256 := by
    rw [Nat.div_lt_iff_lt_mul (by omega)]; omega
  omega

theorem tableEntry_mono {n cmin c d : Nat} (hcd : c ≤ d) (hm : cmin < n) :
    tableEntry n cmin c ≤ tableEntry n cmin d := by
  rw [tableEntry_eq _ hm, tableEntry_eq _ hm]
  exact_mod_cast Nat.div_le_div_right (by omega)

end Sys2Proof.Machine
end

