-- ==== Sys2Proof/Laws/Results.lean ====
section
/-! SUPPORT. What an accepted, undisturbed command answers, said once: the point transforms over their new byte, `CONV` over
the output buffer, and `EQUAL` over the image. -/

namespace Sys2Proof.Machine

theorem depthAccepted_iff (i : Instr) (d : Nat) : depthAccepted i d = true ↔ depthSuits i d := by
  cases i <;> simp [depthAccepted, depthSuits]

theorem usesKernel_iff (i : Instr) : usesKernel i = true ↔ i = .conv := by cases i <;> simp [usesKernel]

/-- An in-place command is accepted when its depth suits and the image is ready. -/
theorem validate_in_place {i : Instr} {s : State} (hi : i ≠ .conv) (hd : depthSuits i s.depth) (h : s.ImageReady) :
    validate i s = .none :=
  (validate_eq_none_iff i s).2 ⟨(depthAccepted_iff ..).2 hd, h.width, h.height, h.inside, fun hk =>
    absurd ((usesKernel_iff i).1 hk) hi⟩

theorem validate_conv {s : State} (hd : depthSuits .conv s.depth) (h : s.ImageReady) (hk : s.KernelReady) :
    validate .conv s = .none :=
  (validate_eq_none_iff .conv s).2 ⟨(depthAccepted_iff ..).2 hd, h.width, h.height, h.inside, fun _ =>
    ⟨hk.odd, hk.divisor, hk.aligned, hk.outInside, hk.kernelInside, hk.outApartImage, hk.outApartKernel⟩⟩

/-- What an accepted in-place command that writes `[IB, IB + size)` with `f` leaves. -/
structure InPlaceResult (s t : State) (size : Nat) (f : Nat → Byte) : Prop where
  bytes : ∀ a, t.byteAt a = if s.ib ≤ a ∧ a < s.ib + size then f (a - s.ib) else s.byteAt a
  status : t.status = ⟨false, true, false, .none⟩
  operands : s.SameOperands t
  outside : s.SameOutside t
  undisturbed : t.disturbed = false
  freeIdx : t.freeIdx = s.freeIdx

theorem exec_in_place {i : Instr} {s : State} {size : Nat} {f : Nat → Byte} (hv : validate i s = .none)
    (hd : s.disturbed = false) (hp : performOf i s = s.writeBuffer s.ib size f) :
    ∃ t, exec i s = .next t ∧ InPlaceResult s t size f := by
  rw [exec_eq_runCommand, runCommand, if_pos hv, hp]
  refine ⟨_, rfl, fun a => State.byteAt_writeBuffer s _ _ _ hd a, rfl, ?_, ?_, rfl, ?_⟩
  · constructor <;> simp
    constructor <;> simp
  · constructor <;> simp
  · simp [State.writeBuffer, hd]

/-- A byte inside the image after an in-place command. -/
theorem InPlaceResult.inside {s t : State} {size : Nat} {f : Nat → Byte} (h : InPlaceResult s t size f) {k : Nat}
    (hk : k < size) : t.byteAt (s.ib + k) = f k := by
  rw [h.bytes, if_pos ⟨by omega, by omega⟩, Nat.add_sub_cancel_left]

theorem InPlaceResult.but {s t : State} {size n : Nat} {f : Nat → Byte} (h : InPlaceResult s t size f) (hn : size ≤ n) :
    s.SameBytesBut t s.ib n := fun a ha => by
  rw [h.bytes, if_neg (by omega)]

/-- The derived names agree where the registers do. -/
theorem State.SameOperands.names {s t : State} (h : s.SameOperands t) :
    t.W = s.W ∧ t.H = s.H ∧ t.depth = s.depth ∧ t.bpp = s.bpp ∧ t.npix = s.npix ∧ t.isize = s.isize ∧ t.ib = s.ib ∧
      t.ob = s.ob ∧ t.kb = s.kb ∧ t.kn = s.kn ∧ t.kd = s.kd ∧ t.kbytes = s.kbytes := by
  have hW : t.W = s.W := congrArg BitVec.toNat h.width
  have hH : t.H = s.H := congrArg BitVec.toNat h.height
  have hd : t.depth = s.depth := congrArg BitVec.toNat h.depth
  have hb : t.bpp = s.bpp := by unfold State.bpp; rw [hd]
  have hp : t.npix = s.npix := by unfold State.npix; rw [hW, hH]
  have hn : t.kn = s.kn := congrArg BitVec.toNat h.krnSize
  exact ⟨hW, hH, hd, hb, hp, by unfold State.isize; rw [hp, hb], congrArg BitVec.toNat h.imgBase,
    congrArg BitVec.toNat h.outBase, congrArg BitVec.toNat h.krnBase, hn, congrArg BitVec.toNat h.krnDiv,
    by unfold State.kbytes; rw [hn]⟩

/-- An image stays ready when the registers and the parameter stay. -/
theorem State.ImageReady.keep {s t : State} (h : s.ImageReady) (ho : s.SameOperands t) (hm : t.memLast = s.memLast) :
    t.ImageReady := by
  obtain ⟨hW, hH, -, -, -, hi, hb, -⟩ := ho.names
  exact ⟨hW ▸ h.width, hH ▸ h.height, by rw [hb, hi, State.memBytes, hm]; exact h.inside⟩

theorem State.isize_of_depth8 {s : State} (h : s.depth = 8) : s.isize = s.npix := by
  simp [State.isize, State.bpp, h]

theorem State.isize_of_depth24 {s : State} (h : s.depth = 24) : s.isize = s.npix * 3 := by
  simp [State.isize, State.bpp, h]

/-- A sum over a list of indices is the sum over the range. -/
theorem sum_map_range (n : Nat) (f : Nat → Int) : ((List.range n).map f).sum = ∑ i ∈ Finset.range n, f i := by
  induction n with
  | zero => simp
  | succ n ih => simp [List.range_succ, Finset.sum_range_succ, ih]

/-- Byte `BPP*(y*W + x) + c` of the output buffer is channel `c` of pixel `(x, y)` (20_memory.md R44). -/
theorem convByte_at (s : State) {x y c : Nat} (hx : x < s.W) (hc : c < s.bpp) :
    convByte s (s.bpp * (y * s.W + x) + c) = toByte (s.convOut x y c) := by
  have hb := s.bpp_pos
  have h1 : (s.bpp * (y * s.W + x) + c) / s.bpp = y * s.W + x := by
    rw [Nat.mul_add_div hb, Nat.div_eq_of_lt hc, Nat.add_zero]
  have h2 : (s.bpp * (y * s.W + x) + c) % s.bpp = c := by rw [Nat.mul_add_mod, Nat.mod_eq_of_lt hc]
  have h3 : (y * s.W + x) / s.W = y := by
    rw [Nat.mul_comm, Nat.mul_add_div (by omega), Nat.div_eq_of_lt hx, Nat.add_zero]
  have h4 : (y * s.W + x) % s.W = x := by rw [Nat.mul_comm, Nat.mul_add_mod, Nat.mod_eq_of_lt hx]
  rw [convByte, h1, h2, h3, h4]

/-- A channel of a pixel of the image lies in its buffer. -/
theorem chan_lt_isize (s : State) {x y c : Nat} (hx : x < s.W) (hy : y < s.H) (hc : c < s.bpp) :
    s.bpp * (y * s.W + x) + c < s.isize := by
  have h1 : y * s.W + x < s.npix := by
    unfold State.npix
    calc y * s.W + x < (y + 1) * s.W := by rw [Nat.add_mul]; omega
      _ ≤ s.W * s.H := by rw [Nat.mul_comm s.W]; exact Nat.mul_le_mul_right _ hy
  unfold State.isize
  calc s.bpp * (y * s.W + x) + c < s.bpp * (y * s.W + x + 1) := by rw [Nat.mul_add s.bpp _ 1]; omega
    _ ≤ s.npix * s.bpp := by rw [Nat.mul_comm s.npix]; exact Nat.mul_le_mul_left _ h1

/-- Every byte of a buffer laid out like the image is a channel of a pixel. -/
theorem exists_chan (s : State) {k : Nat} (hk : k < s.isize) :
    ∃ x y c, x < s.W ∧ y < s.H ∧ c < s.bpp ∧ k = s.bpp * (y * s.W + x) + c := by
  have hb := s.bpp_pos
  have hp : k / s.bpp < s.W * s.H := by
    rw [Nat.div_lt_iff_lt_mul hb]; exact hk
  have hW : 0 < s.W := by
    rcases Nat.eq_zero_or_pos s.W with h | h
    · rw [h, Nat.zero_mul] at hp; exact absurd hp (Nat.not_lt_zero _)
    · exact h
  refine ⟨k / s.bpp % s.W, k / s.bpp / s.W, k % s.bpp, Nat.mod_lt _ hW, ?_, Nat.mod_lt _ hb, ?_⟩
  · rw [Nat.div_lt_iff_lt_mul hW, Nat.mul_comm]; exact hp
  · rw [Nat.mul_comm (k / s.bpp / s.W), Nat.div_add_mod, Nat.div_add_mod]

/-- The interior test as inequalities (42_convolution.md R95). -/
theorem interior_iff (s : State) (x y : Nat) : s.interior x y = true ↔
    s.koff ≤ x ∧ x + s.koff < s.W ∧ s.koff ≤ y ∧ y + s.koff < s.H := by
  simp only [State.interior, Bool.and_eq_true, decide_eq_true_eq, and_assoc]

/-- Every output value is a channel value. -/
theorem convOut_mem (s : State) (x y c : Nat) : 0 ≤ s.convOut x y c ∧ s.convOut x y c ≤ 255 := by
  unfold State.convOut State.pixel
  split
  · exact ⟨clamp_nonneg _, clamp_le _⟩
  · exact ⟨s.memRead1_nonneg _, s.memRead1_le _⟩

/-- What an accepted `CONV` leaves. -/
structure ConvResult (s t : State) : Prop where
  bytes : ∀ a, t.byteAt a = if s.ob ≤ a ∧ a < s.ob + s.isize then convByte s (a - s.ob) else s.byteAt a
  status : t.status = ⟨false, true, false, .none⟩
  sizes : s.SameSizes t
  imgBase : t.imgBase = s.outBase
  outBase : t.outBase = s.imgBase
  outside : s.SameOutside t
  undisturbed : t.disturbed = false

theorem exec_conv {s : State} (hv : validate .conv s = .none) (hd : s.disturbed = false) :
    ∃ t, exec .conv s = .next t ∧ ConvResult s t := by
  rw [exec_eq_runCommand, runCommand, if_pos hv]
  refine ⟨_, rfl, fun a => State.byteAt_writeBuffer s _ _ _ hd a, rfl, ?_, ?_, ?_, ?_, rfl⟩
  · constructor <;> simp [performOf, performConv]
  · simp [performOf, performConv]
  · simp [performOf, performConv]
  · constructor <;> simp [performOf, performConv]

/-- Channel `c` of pixel `(x, y)` of the output buffer after `CONV`, as an integer. -/
theorem ConvResult.chan {s t : State} (h : ConvResult s t) {x y c : Nat} (hx : x < s.W) (hy : y < s.H)
    (hc : c < s.bpp) : ((t.byteAt (s.chanAddr s.ob x y c)).toNat : Int) = s.convOut x y c := by
  have := chan_lt_isize s hx hy hc
  rw [h.bytes, State.chanAddr, if_pos ⟨by omega, by omega⟩, Nat.add_assoc, Nat.add_sub_cancel_left,
    convByte_at s hx hc, toByte_toNat (convOut_mem ..).1 (convOut_mem ..).2]

end Sys2Proof.Machine
end

