-- ==== Sys2Proof/Laws/Equalization.lean ====
section
/-! SUPPORT. `EQUAL`: what it answers on an image that is not degenerate and on one that is, and the table's entry for a
pixel in terms of counts of pixels. -/

namespace Sys2Proof.Machine

theorem State.ImageReady.npix_pos {s : State} (h : s.ImageReady) : 0 < s.npix :=
  Nat.mul_pos (Nat.pos_of_ne_zero h.width) (Nat.pos_of_ne_zero h.height)

/-- `EQUAL` on an image that is not degenerate writes every byte of it. -/
theorem exec_equal {s : State} (hs : depthSuits .equal s.depth) (hr : s.ImageReady) (hd : s.disturbed = false)
    (hne : s.npix ≠ cdfMin s.lums) : ∃ t, exec .equal s = .next t ∧ InPlaceResult s t s.isize (equalByte s) := by
  refine exec_in_place (validate_in_place (by simp) hs hr) hd ?_
  have : s.equalSize = s.isize := by simp [State.equalSize, State.degenerate, hne]
  rw [← this]; rfl

/-- `EQUAL` on a degenerate image performs nothing (43_equalization.md R114). -/
theorem performEqual_degenerate {s : State} (hd : s.disturbed = false) (h : s.npix = cdfMin s.lums) :
    performOf .equal s = s := by
  simp only [performOf, performEqual, State.writeBuffer, hd, State.equalSize, State.degenerate, ← h]
  cases s; simp_all [Memory.fill]

/-- A smallest luminance is a natural number. -/
theorem State.LowestLum.toNat {s : State} {m : Int} (h : s.LowestLum m) : ∃ n : Nat, m = n ∧ s.LowestLum n := by
  obtain ⟨p, hp, e⟩ := h.1
  have := lumAt_nonneg s p
  refine ⟨m.toNat, by omega, ?_⟩
  rw [Int.toNat_of_nonneg (by omega)]; exact h

/-- The table's entry for a pixel's luminance. -/
theorem equalizedAt_lumAt {s : State} (p : Nat) :
    equalizedAt s.lums (s.lumAt p) = tableEntry s.npix (cdfMin s.lums) (s.countUpTo (s.lumAt p)) := by
  have h0 := lumAt_nonneg s p
  have h1 := lumAt_le s p
  rw [equalizedAt_eq _ _ (by omega), lums_length, ← countUpTo_eq, Int.toNat_of_nonneg h0]

theorem countUpTo_le (s : State) (l : Int) : s.countUpTo l ≤ s.npix := by
  unfold State.countUpTo; exact (List.length_filter_le _ _).trans (by simp)

theorem countUpTo_mono (s : State) {l k : Int} (h : l ≤ k) : s.countUpTo l ≤ s.countUpTo k := by
  unfold State.countUpTo
  rw [← List.countP_eq_length_filter, ← List.countP_eq_length_filter]
  exact List.countP_mono_left fun p _ h => by simp only [decide_eq_true_eq] at *; omega

/-- `cdf_min` is at most the number of pixels. -/
theorem cdfMin_le {s : State} (h : 0 < s.npix) : cdfMin s.lums ≤ s.npix := by
  obtain ⟨m, -, hl⟩ := exists_lowestLum h
  rw [cdfMin_lums hl]; exact countUpTo_le ..

/-- The luminances depend on the image's registers and bytes alone. -/
theorem lums_congr {s t : State} (ho : s.SameOperands t) (hb : ∀ a, t.byteAt a = s.byteAt a) : t.lums = s.lums := by
  obtain ⟨hW, hH, hd, -, hp, -, hi, -⟩ := ho.names
  unfold State.lums State.lumAt State.memRead1
  rw [hp, hd, hi]; simp only [hb]

end Sys2Proof.Machine
end

