-- ==== Sys2Proof/Laws/PerInstr.lean ====
section
/-! SUPPORT. The statements made of every command as syntax, one lemma per constructor. -/

namespace Sys2Proof.Laws.OpField

/-- The word of a command holds its operation code in `OP`, zero in `RSV`, and in `IMM` its immediate wherever that fits, which
is zero for a command without one (30_encoding.md R59, R60). -/
def Statement (i : Instr) : Prop :=
  opField (encode i) = i.opcode ∧ rsvField (encode i) = 0#12 ∧ (i.wf = true → sext16 (immField (encode i)) = i.immediate)

theorem neg : Statement .neg := ⟨opField_encode _, rsvField_encode _, fun _ => rfl⟩

theorem gray : Statement .gray := ⟨opField_encode _, rsvField_encode _, fun _ => rfl⟩

theorem bright (imm : Int) : Statement (.bright imm) :=
  ⟨opField_encode _, rsvField_encode _, fun h => by rw [immField_encode]; exact sext16_ofInt h⟩

theorem thresh (imm : Int) : Statement (.thresh imm) :=
  ⟨opField_encode _, rsvField_encode _, fun h => by rw [immField_encode]; exact sext16_ofInt h⟩

theorem conv : Statement .conv := ⟨opField_encode _, rsvField_encode _, fun _ => rfl⟩

theorem equal : Statement .equal := ⟨opField_encode _, rsvField_encode _, fun _ => rfl⟩

end Sys2Proof.Laws.OpField
end

