-- ==== Sys2Proof/Laws/Reads.lean ====
section
/-! SUPPORT. What a command reads: its bytes depend on nothing but its registers and the bytes of its own buffers, so a byte
written elsewhere by the host makes no difference to it (20_memory.md R54). -/

namespace Sys2Proof.Machine

/-- The state after a byte of memory is written, and nothing else. -/
abbrev State.setByte (s : State) (a : Nat) (v : Byte) : State := { s with mem := Memory.set s.mem a v }

theorem State.byteAt_setByte_ne (s : State) {a b : Nat} (v : Byte) (h : b ≠ a) :
    (s.setByte a v).byteAt b = s.byteAt b := by
  simp [State.byteAt, Memory.lookup_set_ne _ v h]

theorem State.memRead1_setByte_ne (s : State) {a b : Nat} (v : Byte) (h : b ≠ a) :
    (s.setByte a v).memRead1 b = s.memRead1 b := by
  simp only [State.memRead1, s.byteAt_setByte_ne v h]

/-- A fill depends on the bytes it writes alone. -/
theorem Memory.fill_congr (m : Memory) (base : Nat) {f g : Nat → Byte} {size : Nat} (h : ∀ k < size, f k = g k) :
    Memory.fill m base f size = Memory.fill m base g size := by
  induction size with
  | zero => rfl
  | succ n ih => rw [Memory.fill, Memory.fill, ih fun k hk => h k (by omega), h n (by omega)]

/-- A byte written outside a filled run may be written before or after. -/
theorem Memory.fill_set {m : Memory} (h : m.wf) {a base size : Nat} (v : Byte) (f : Nat → Byte)
    (ha : ¬ (base ≤ a ∧ a < base + size)) :
    Memory.fill (Memory.set m a v) base f size = Memory.set (Memory.fill m base f size) a v := by
  refine Memory.ext_of_lookup (Memory.fill_wf (Memory.set_wf h a v) ..) (Memory.set_wf (Memory.fill_wf h ..) a v)
    fun b => ?_
  simp only [Memory.lookup_fill, Memory.lookup_set]
  by_cases hb : b = a
  · subst hb; simp [ha]
  · simp [hb]

/-- A pixel's luminance reads the image alone. -/
theorem lumAt_setByte (s : State) {a p : Nat} (v : Byte) (hd : s.depth = 8 ∨ s.depth = 24) (hp : p < s.npix)
    (ha : ¬ (s.ib ≤ a ∧ a < s.ib + s.isize)) : (s.setByte a v).lumAt p = s.lumAt p := by
  rcases hd with hd | hd
  · have := State.isize_of_depth8 hd
    have h : (s.setByte a v).depth = 8 := hd
    rw [State.lumAt, if_pos h, State.lumAt, if_pos hd]
    exact s.memRead1_setByte_ne v (b := s.ib + p) (by omega)
  · have := State.isize_of_depth24 hd
    have h : ¬ (s.setByte a v).depth = 8 := by show ¬ s.depth = 8; omega
    rw [State.lumAt, if_neg h, State.lumAt, if_neg (by omega)]
    show lum ((s.setByte a v).memRead1 (s.ib + 3 * p)) ((s.setByte a v).memRead1 (s.ib + 3 * p + 1))
      ((s.setByte a v).memRead1 (s.ib + 3 * p + 2)) = _
    rw [s.memRead1_setByte_ne v (by omega), s.memRead1_setByte_ne v (by omega), s.memRead1_setByte_ne v (by omega)]

theorem lums_setByte (s : State) {a : Nat} (v : Byte) (hd : s.depth = 8 ∨ s.depth = 24)
    (ha : ¬ (s.ib ≤ a ∧ a < s.ib + s.isize)) : (s.setByte a v).lums = s.lums :=
  List.map_congr_left fun p hp => by rw [lumAt_setByte s v hd (List.mem_range.1 hp) ha]

/-- A kernel weight reads the kernel alone. -/
theorem weight_setByte (s : State) {a i j : Nat} (v : Byte) (hi : i < s.kn) (hj : j < s.kn)
    (ha : ¬ (s.kb ≤ a ∧ a < s.kb + s.kbytes)) : (s.setByte a v).weight i j = s.weight i j := by
  have h : i * s.kn + j < s.kn * s.kn := by
    calc i * s.kn + j < (i + 1) * s.kn := by rw [Nat.add_mul]; omega
      _ ≤ s.kn * s.kn := Nat.mul_le_mul_right _ hi
  have hk : s.kbytes = 4 * (s.kn * s.kn) := by rw [State.kbytes, Nat.mul_assoc]
  show sext32 ((s.setByte a v).memRead4 (s.kb + 4 * (i * s.kn + j))) = _
  unfold State.memRead4
  rw [s.byteAt_setByte_ne v (by omega), s.byteAt_setByte_ne v (by omega), s.byteAt_setByte_ne v (by omega),
    s.byteAt_setByte_ne v (by omega)]
  rfl

/-- A channel of a pixel of the image reads the image alone. -/
theorem pixel_setByte (s : State) {a x y c : Nat} (v : Byte) (hx : x < s.W) (hy : y < s.H) (hc : c < s.bpp)
    (ha : ¬ (s.ib ≤ a ∧ a < s.ib + s.isize)) : (s.setByte a v).pixel x y c = s.pixel x y c := by
  have := chan_lt_isize s hx hy hc
  refine s.memRead1_setByte_ne v (b := s.chanAddr s.ib x y c) ?_
  unfold State.chanAddr; omega

theorem convOut_setByte (s : State) {a x y c : Nat} (v : Byte) (hx : x < s.W) (hy : y < s.H) (hc : c < s.bpp)
    (ha : ¬ (s.ib ≤ a ∧ a < s.ib + s.isize)) (hk : ¬ (s.kb ≤ a ∧ a < s.kb + s.kbytes)) :
    (s.setByte a v).convOut x y c = s.convOut x y c := by
  have hin : (s.setByte a v).interior x y = s.interior x y := rfl
  rw [State.convOut, State.convOut, hin]
  by_cases h : s.interior x y = true
  · rw [if_pos h, if_pos h]
    obtain ⟨h1, h2, h3, h4⟩ := (interior_iff s x y).1 h
    have hsum : (s.setByte a v).convSum x y c = s.convSum x y c := by
      refine congrArg List.sum (List.map_congr_left fun i hi => congrArg List.sum (List.map_congr_left fun j hj => ?_))
      have hi : i < s.kn := List.mem_range.1 hi
      have hj : j < s.kn := List.mem_range.1 hj
      have ho : s.koff = s.kn / 2 := rfl
      rw [weight_setByte s v hi hj hk]
      exact congrArg _ (pixel_setByte s v (x := x + j - s.koff) (y := y + i - s.koff) (by omega) (by omega) hc ha)
    rw [hsum]; rfl
  · rw [if_neg h, if_neg h]; exact pixel_setByte s v hx hy hc ha

/-- The buffers of an accepted command do not depend on a byte outside its destination. -/
theorem buffersOf_setByte (i : Instr) {s : State} {a : Nat} (v : Byte) (hv : validate i s = .none)
    (ht : ¬ ((s.buffersOf i).target.1 ≤ a ∧ a < (s.buffersOf i).target.1 + (s.buffersOf i).target.2)) :
    (s.setByte a v).buffersOf i = s.buffersOf i := by
  cases i with
  | neg | gray | bright | thresh | conv => rfl
  | equal =>
    obtain ⟨hdep, -⟩ := (validate_eq_none_iff _ s).1 hv
    have hl := lums_setByte s v ((depthAccepted_iff ..).1 hdep) ht
    have he : (s.setByte a v).equalSize = s.equalSize := by
      unfold State.equalSize State.degenerate; rw [hl]; rfl
    simp only [State.buffersOf, he]; rfl

/-- An accepted command's effect on memory commutes with a byte the host writes outside its buffers. -/
theorem performOf_setByte (i : Instr) {s : State} {a : Nat} (v : Byte) (hw : s.mem.wf) (hd : s.disturbed = false)
    (hv : validate i s = .none) (ht : ¬ ((s.buffersOf i).target.1 ≤ a ∧
      a < (s.buffersOf i).target.1 + (s.buffersOf i).target.2))
    (hr : ∀ b ∈ (s.buffersOf i).reads, ¬ (b.1 ≤ a ∧ a < b.1 + b.2)) :
    performOf i (s.setByte a v) = (performOf i s).setByte a v := by
  obtain ⟨hdep, hW, hH, -, -⟩ := (validate_eq_none_iff i s).1 hv
  have hdep := (depthAccepted_iff ..).1 hdep
  have key : ∀ {base size : Nat} {f g : Nat → Byte}, ¬ (base ≤ a ∧ a < base + size) → (∀ k < size, f k = g k) →
      (s.setByte a v).writeBuffer base size f = (s.writeBuffer base size g).setByte a v := by
    intro base size f g h1 h2
    simp only [State.writeBuffer, hd, Bool.false_eq_true, if_false]
    rw [Memory.fill_congr _ _ h2, Memory.fill_set hw v g h1]
  cases i with
  | neg =>
    exact key ht fun k hk => congrArg (fun x => toByte (255 - x))
      (s.memRead1_setByte_ne v (b := s.ib + k) (by have : k < s.isize := hk; have : ¬ (s.ib ≤ a ∧ a < s.ib + s.isize) := ht; omega))
  | gray =>
    refine key ht fun k hk => ?_
    have hk : k < s.isize := hk
    have ht : ¬ (s.ib ≤ a ∧ a < s.ib + s.isize) := ht
    have := State.isize_of_depth24 (s := s) hdep
    show toByte (fdiv ((s.setByte a v).memRead1 (s.ib + 3 * (k / 3)) + (s.setByte a v).memRead1 (s.ib + 3 * (k / 3) + 1) +
      (s.setByte a v).memRead1 (s.ib + 3 * (k / 3) + 2)) 3) = _
    rw [s.memRead1_setByte_ne v (by omega), s.memRead1_setByte_ne v (by omega), s.memRead1_setByte_ne v (by omega)]
    rfl
  | bright imm =>
    exact key ht fun k hk => congrArg (fun x => toByte (clamp (x + imm) 0 255))
      (s.memRead1_setByte_ne v (b := s.ib + k) (by have : k < s.isize := hk; have : ¬ (s.ib ≤ a ∧ a < s.ib + s.isize) := ht; omega))
  | thresh imm =>
    exact key ht fun k hk => congrArg (fun x : Int => if x ≥ imm then toByte 255 else toByte 0)
      (s.memRead1_setByte_ne v (b := s.ib + k) (by have : k < s.isize := hk; have : ¬ (s.ib ≤ a ∧ a < s.ib + s.isize) := ht; omega))
  | conv =>
    have hi := hr s.imageSpan (by simp [State.buffersOf])
    have hk := hr s.kernelSpan (by simp [State.buffersOf])
    have := key ht (f := convByte (s.setByte a v)) (g := convByte s) fun k hlt => by
      obtain ⟨x, y, c, hx, hy, hc, rfl⟩ := exists_chan s hlt
      rw [convByte_at s hx hc, ← convOut_setByte s v hx hy hc hi hk]
      exact convByte_at (s.setByte a v) hx hc
    exact congrArg State.swapBases this
  | equal =>
    have ht : ¬ (s.ib ≤ a ∧ a < s.ib + s.isize) := ht
    have hl := lums_setByte s v hdep ht
    have he : (s.setByte a v).equalSize = s.equalSize := by
      unfold State.equalSize State.degenerate; rw [hl]; rfl
    have hle := s.equalSize_le
    show (s.setByte a v).writeBuffer s.ib (s.setByte a v).equalSize (equalByte (s.setByte a v)) = _
    rw [he]
    refine key (by omega) fun k hk => ?_
    have hk : k < s.isize := by omega
    rcases hdep with h8 | h24
    · have h : (s.setByte a v).depth = 8 := h8
      rw [equalByte, if_pos h, equalByte, if_pos h8, hl]
      exact congrArg (fun x => toByte (equalizedAt s.lums x)) (s.memRead1_setByte_ne v (b := s.ib + k) (by omega))
    · have h : ¬ (s.setByte a v).depth = 8 := by show ¬ s.depth = 8; omega
      have := State.isize_of_depth24 h24
      rw [equalByte, if_neg h, equalByte, if_neg (by omega)]
      unfold State.equalColour
      rw [hl]
      have e : ∀ c < 3, (s.setByte a v).memRead1 (s.ib + 3 * (k / 3) + c) = s.memRead1 (s.ib + 3 * (k / 3) + c) :=
        fun c hc => s.memRead1_setByte_ne v (by omega)
      have e0 := e 0 (by omega)
      rw [Nat.add_zero] at e0
      have e1 := e 1 (by omega)
      have e2 := e 2 (by omega)
      show toByte (rebuild (equalizedAt s.lums (lum ((s.setByte a v).memRead1 (s.ib + 3 * (k / 3)))
        ((s.setByte a v).memRead1 (s.ib + 3 * (k / 3) + 1)) ((s.setByte a v).memRead1 (s.ib + 3 * (k / 3) + 2)))) _ _ _) = _
      rw [e0, e1, e2]
      show toByte (rebuild _ (chromaU ((s.setByte a v).memRead1 (s.ib + 3 * (k / 3)))
        ((s.setByte a v).memRead1 (s.ib + 3 * (k / 3) + 1)) ((s.setByte a v).memRead1 (s.ib + 3 * (k / 3) + 2)))
        (chromaV ((s.setByte a v).memRead1 (s.ib + 3 * (k / 3)))
        ((s.setByte a v).memRead1 (s.ib + 3 * (k / 3) + 1)) ((s.setByte a v).memRead1 (s.ib + 3 * (k / 3) + 2))) _) = _
      rw [e0, e1, e2]

end Sys2Proof.Machine
end

