-- ==== Sys2Proof/Laws/Step.lean ====
section
/-! SUPPORT. One step: which register accesses have a meaning, everything the engine's turn and a step can answer, plain host
accesses, and what the loss of known values leaves alone. -/

namespace Sys2Proof.Machine

theorem regAccess_offset (r : Reg) : regAccess r.offset 4 = .ok r := by cases r <;> rfl

/-- Whatever stands at an offset is what an aligned word access there reaches. -/
theorem regAccess_standsAt {r : Reg} {offset : Nat} (h : r.standsAt offset) : regAccess offset 4 = .ok r := by
  rcases h with rfl | ⟨rfl, rfl | rfl | rfl⟩
  · exact regAccess_offset r
  all_goals rfl

/-- Exactly the aligned 32-bit accesses inside the block have a meaning (10_state.md R29, R30). -/
theorem regAccess_ok_iff (offset size : Nat) :
    (∃ r, regAccess offset size = .ok r) ↔ size = 4 ∧ offset % 4 = 0 ∧ offset < 0x40 := by
  unfold regAccess
  constructor
  · rintro ⟨r, h⟩
    split at h
    · cases h
    · rename_i hn
      refine ⟨by omega, by omega, ?_⟩
      by_contra hc
      have : Reg.ofOffset offset = none := by
        unfold Reg.ofOffset; rw [List.getElem?_eq_none]; simp; omega
      rw [this] at h; cases h
  · rintro ⟨rfl, ha, ho⟩
    rw [if_neg (by omega)]
    have h16 : offset / 4 < 16 := by omega
    unfold Reg.ofOffset
    generalize offset / 4 = n at h16 ⊢
    interval_cases n <;> exact ⟨_, rfl⟩

/-- Everything the engine's turn can do: nothing while idle, `E_OP` on an illegal word, the command otherwise
(40_command_cycle.md R74). -/
theorem engineTurn_cases (s : State) :
    (s.status.busy = false ∧ s.engineTurn = .next s) ∨
    (s.status.busy = true ∧ ∃ e, decodeWord s.cmd = .error e ∧ s.engineTurn = .next (s.raiseError .op)) ∨
    (s.status.busy = true ∧ ∃ i, decodeWord s.cmd = .ok i ∧ s.engineTurn = exec i s) := by
  unfold State.engineTurn State.execute
  cases s.status.busy
  · exact .inl ⟨rfl, rfl⟩
  · cases h : decodeWord s.cmd with
    | error e => exact .inr (.inl ⟨rfl, e, rfl, rfl⟩)
    | ok i => exact .inr (.inr ⟨rfl, i, rfl, rfl⟩)

/-- The engine's turn always answers a next state. -/
theorem engineTurn_next (s : State) : ∃ t, s.engineTurn = .next t := by
  rcases engineTurn_cases s with ⟨-, h⟩ | ⟨-, _, -, h⟩ | ⟨-, i, -, h⟩
  · exact ⟨_, h⟩
  · exact ⟨_, h⟩
  · rcases exec_cases i s with ⟨-, h2⟩ | ⟨-, h2⟩ <;> exact ⟨_, h.trans h2⟩

/-- A command that will be performed is the issued one, accepted. -/
theorem State.running_eq_some {s : State} {i : Instr} :
    s.running = some i ↔ s.status.busy = true ∧ decodeWord s.cmd = .ok i ∧ validate i s = .none := by
  unfold State.running
  cases s.status.busy
  · simp
  · cases h : decodeWord s.cmd with
    | error e => simp
    | ok j =>
      simp only [if_true, Except.ok.injEq, true_and]
      split
      · rename_i hv
        simp only [Option.some.injEq]
        constructor
        · rintro rfl; exact ⟨rfl, hv⟩
        · exact fun h => h.1
      · rename_i hv
        constructor
        · exact fun h => by cases h
        · rintro ⟨rfl, h⟩; exact absurd h hv

theorem inSpan_iff {a : Nat} {sp : Span} : inSpan a sp = true ↔ sp.1 ≤ a ∧ a < sp.1 + sp.2 := by
  simp [inSpan]

theorem Buffers.covers_iff {b : Buffers} {a : Nat} : b.covers a = true ↔
    (b.target.1 ≤ a ∧ a < b.target.1 + b.target.2) ∨ ∃ sp ∈ b.reads, sp.1 ≤ a ∧ a < sp.1 + sp.2 := by
  simp [Buffers.covers, inSpan_iff]

theorem State.forgetTargets_wf {s : State} (h : s.mem.wf) (bs : List Buffers) : (s.forgetTargets bs).mem.wf := by
  induction bs generalizing s with
  | nil => exact h
  | cons b bs ih => exact ih (Memory.fill_wf h ..)

theorem State.mem_forgetTargets {s : State} {bs : List Buffers} {c : Host.Cell} (h : c ∈ (s.forgetTargets bs).mem) :
    (∃ b ∈ bs, b.target.1 ≤ c.1 ∧ c.1 < b.target.1 + b.target.2) ∨ c ∈ s.mem := by
  induction bs generalizing s with
  | nil => exact .inr h
  | cons b bs ih =>
    rcases ih h with ⟨b', hb, h⟩ | h
    · exact .inl ⟨b', List.mem_cons_of_mem _ hb, h⟩
    · rcases Memory.mem_fill h with h | h
      · exact .inl ⟨b, List.mem_cons_self, h⟩
      · exact .inr h

/-- A byte the command writes is one of its destination, so a byte none of its buffers covers is none it writes. -/
theorem State.written_of_covers (s : State) {i : Instr} {a : Nat} (h : (s.buffersOf i).covers a = false) :
    (s.buffersOf i).written a = false := by
  rw [← Bool.not_eq_true] at h ⊢
  rw [Buffers.covers_iff] at h
  unfold Buffers.written
  rw [inSpan_iff]
  have := writes_in_target i s
  exact fun hw => h (.inl ⟨by omega, by omega⟩)

/-- The running command and its buffers do not depend on a byte outside them. -/
theorem State.runningBuffers_setByte (s : State) {a : Nat} (v : Byte)
    (h : s.runningBuffers.any (·.covers a) = false) : (s.setByte a v).runningBuffers = s.runningBuffers := by
  have hv (i : Instr) : validate i (s.setByte a v) = validate i s := validate_congr i rfl rfl rfl rfl rfl rfl rfl rfl rfl
  have hrun : (s.setByte a v).running = s.running := by simp only [State.running, hv]
  unfold State.runningBuffers at h ⊢
  rw [hrun]
  cases hr : s.running with
  | none => rfl
  | some i =>
    rw [hr] at h
    have h : ((s.buffersOf i).covers a) = false := h
    rw [← Bool.not_eq_true, Buffers.covers_iff] at h
    exact congrArg some (buffersOf_setByte i v (State.running_eq_some.1 hr).2.2 fun ht => h (.inl ht))

/-- A host read of a byte no command writes: the byte, and no other effect (20_memory.md R40, R54). -/
theorem State.hostRead_of_unwritten {s : State} {a : Nat} (ha : a < s.memBytes)
    (hr : s.runningBuffers.any (·.written a) = false) (hu : s.unseen.any (·.written a) = false) :
    s.hostRead a = .next { s with reply := .some ((s.byteAt a).setWidth 32) } := by
  rw [State.hostRead, if_neg (by omega), hr, hu]; rfl

/-- A host write to a byte no command's buffers cover: that byte, and no other effect (20_memory.md R40, R54). -/
theorem State.hostWrite_of_uncovered {s : State} {a : Nat} (v : Byte) (ha : a < s.memBytes)
    (hr : s.runningBuffers.any (·.covers a) = false) (hu : s.unseen.any (·.covers a) = false) :
    s.hostWrite a v = .next (s.setByte a v) := by
  have f : s.unseen.filter (·.covers a) = [] := by simpa using hu
  rw [State.hostWrite, if_neg (by omega), hr, f]
  simp [State.forgetTargets]

/-- Abandoning a command touches memory and the count of free values alone. -/
theorem State.abandon_mem (s : State) : s.abandon.mem = s.mem ∨
    ∃ i, s.running = some i ∧
      s.abandon = s.forget (s.buffersOf i).writes.1 (s.buffersOf i).writes.2 := by
  unfold State.abandon
  cases s.running with
  | none => exact .inl rfl
  | some i => exact .inr ⟨i, rfl, rfl⟩

/-- What a step answers, by the oldest input. -/
theorem step_of_inputs (s : State) : step s = match s.inputs with
    | [] => s.engineTurn
    | e :: rest => State.take { s with inputs := rest } e := rfl

end Sys2Proof.Machine
end

