-- ==== Sys2Proof/Laws/ReadBack.lean ====
section
/-! SUPPORT. What the host's reads answer when no command writes the bytes read: the bytes as they stand
(44_host_codec.md R137, 20_memory.md R40). -/

namespace Sys2Proof.Machine

@[simp] theorem followedBy_next {α β : Type} (x : α) (f : α → Host.Outcome β Fault Refusal) :
    followedBy (.next x) f = f x := rfl

theorem State.hostTakes_memRead {s : State} {a : Nat} (ha : a < s.memBytes)
    (hr : s.runningBuffers.any (·.written a) = false) (hu : s.unseen.any (·.written a) = false) :
    s.hostTakes (.memRead a) =
      .next ({ s with reply := .some ((s.byteAt a).setWidth 32) }, (s.byteAt a).setWidth 32) := by
  have h : step { s with inputs := .memRead a :: s.inputs } = s.hostRead a := rfl
  rw [State.hostTakes, h, State.hostRead_of_unwritten ha hr hu]
  rfl

theorem State.hostTakes_imgBase (s : State) :
    s.hostTakes (.regRead Reg.imgBase.offset 4) = .next ({ s with reply := .some s.imgBase }, s.imgBase) := rfl

/-- Reading a run of bytes that no command writes answers them one by one and leaves all but the reply alone. -/
theorem State.readBytes_of_unwritten (n : Nat) (s : State) (a : Nat) (ha : a + n ≤ s.memBytes)
    (h : ∀ k < n, s.runningBuffers.any (·.written (a + k)) = false ∧ s.unseen.any (·.written (a + k)) = false) :
    ∃ r, State.readBytes n s a = .next ({ s with reply := r }, (List.range n).map fun k => s.byteAt (a + k)) := by
  induction n generalizing s a with
  | zero => exact ⟨s.reply, rfl⟩
  | succ n ih =>
    obtain ⟨hr, hu⟩ := h 0 (by omega)
    obtain ⟨r, ih⟩ := ih { s with reply := .some ((s.byteAt a).setWidth 32) } (a + 1)
      (by show a + 1 + n ≤ s.memBytes; omega)
      fun k hk => by have := h (k + 1) (by omega); rwa [show a + (k + 1) = a + 1 + k by omega] at this
    refine ⟨r, ?_⟩
    rw [State.readBytes, State.hostTakes_memRead (a := a) (by omega) hr hu, followedBy_next]
    show followedBy (State.readBytes n { s with reply := .some ((s.byteAt a).setWidth 32) } (a + 1)) _ = _
    rw [ih, followedBy_next, List.range_succ_eq_map, List.map_cons, List.map_map]
    refine congrArg Host.Outcome.next (Prod.ext rfl (congrArg₂ List.cons (by simp) (List.map_congr_left fun k _ => ?_)))
    show s.byteAt (a + 1 + k) = s.byteAt (a + (k + 1))
    rw [Nat.add_right_comm, Nat.add_assoc]

end Sys2Proof.Machine
end

