-- ==== Sys2Proof/Tests/Slice0.lean ====
section
/-! SUPPORT. The model's own tests and the witnesses of the statements' hypotheses. Every expected value is taken from
95_test_vectors.md (the vector is named beside it) or from the rule named. -/

namespace Sys2Proof.Tests

open Sys2Proof.Machine

section Checks

/-! One test is checked after another: in parallel, so many kernel evaluations ask for too many threads. -/

set_option Elab.async false

/-! Helpers. -/

/-- Bytes in memory from `base` on. -/
def bytes (base : Nat) : List Nat → Memory
  | [] => []
  | b :: bs => (base, BitVec.ofNat 8 b) :: bytes (base + 1) bs

/-- After reset, with `MEM_BYTES = 0x10000`, a programmed image at 0x1000 and its pixels in memory. -/
def image (w h d : Nat) (pixels : List Nat) : State :=
  { State.reset with
    memLast := 0xFFFF#32
    imgBase := 0x1000#32
    imgWidth := BitVec.ofNat 32 w
    imgHeight := BitVec.ofNat 32 h
    imgDepth := BitVec.ofNat 32 d
    mem := bytes 0x1000 pixels }

/-- The image of `s` with an output buffer at 0x2000 and a kernel of bytes at 0x3000. -/
def withKernel (s : State) (n div : Nat) (words : List Nat) : State :=
  { s with
    outBase := 0x2000#32
    krnBase := 0x3000#32
    krnSize := BitVec.ofNat 32 n
    krnDiv := BitVec.ofNat 32 div
    mem := s.mem ++ bytes 0x3000 (words.flatMap fun w => [w % 256, w / 256 % 256, w / 65536 % 256, w / 16777216]) }

/-- The state an outcome answers, if it is one. -/
def stateOf : Host.Outcome State Fault Refusal → Option State
  | .next t => some t
  | .fault _ => none
  | .refused _ => none

/-- The `n` bytes from `a` on, as numbers. -/
def shown (a n : Nat) (s : State) : List Nat := (List.range n).map fun k => (s.byteAt (a + k)).toNat

/-- The bytes from `a` on after a command. -/
def after (i : Instr) (s : State) (a n : Nat) : Option (List Nat) := (stateOf (exec i s)).map (shown a n)

/-- `STATUS` as the host reads it after a command. -/
def report (i : Instr) (s : State) : Option Word := (stateOf (exec i s)).map fun t => t.status.word

/-- What the host reads at the offset after its one write. -/
def readBack (s : State) (offset : Nat) (v : Word) (r : Reg) : Option Word :=
  (stateOf (step { s with inputs := [.regWrite offset 4 v] })).map fun t => t.readReg r

def idleReported : State := { image 4 4 8 [] with status := ⟨false, true, true, .format⟩ }

def base : State := withKernel (image 4 4 8 []) 3 9 []

/-! Well-formedness: ill-formed commands are refused. -/

theorem test_wf_bright_high : (Instr.bright 32768).wf = false := by decide
theorem test_wf_bright_low : (Instr.bright (-32769)).wf = false := by decide
theorem test_wf_thresh_high : (Instr.thresh 32768).wf = false := by decide
theorem test_wf_thresh_low : (Instr.thresh (-32769)).wf = false := by decide

/-! Decoding, from words written out by 30_encoding.md R59 and R63 (95_test_vectors.md 2.2). -/

theorem test_decode_neg : decodeWord 0b0000000000000000_000000000000_0001#32 = .ok .neg := by decide
theorem test_decode_gray : decodeWord 0b0000000000000000_000000000000_0010#32 = .ok .gray := by decide
theorem test_decode_bright : decodeWord 0b1111111111001110_000000000000_0011#32 = .ok (.bright (-50)) := by decide
theorem test_decode_thresh : decodeWord 0b0000000010000000_000000000000_0100#32 = .ok (.thresh 128) := by decide
theorem test_decode_conv : decodeWord 0b0000000000000000_000000000000_0101#32 = .ok .conv := by decide
theorem test_decode_equal : decodeWord 0b0000000000000000_000000000000_0110#32 = .ok .equal := by decide
theorem test_decode_bright_most : decodeWord 0x7FFF0003#32 = .ok (.bright 32767) := by decide
theorem test_decode_bright_least : decodeWord 0x80000003#32 = .ok (.bright (-32768)) := by decide
theorem test_decode_zero : decodeWord 0x00000000#32 = .error .unknownOp := by decide
theorem test_decode_seven : decodeWord 0x00000007#32 = .error .unknownOp := by decide
theorem test_decode_stray_immediate : decodeWord 0x00010001#32 = .error .strayImmediate := by decide
theorem test_decode_reserved_low : decodeWord 0x00000013#32 = .error .reservedBits := by decide
theorem test_decode_reserved_high : decodeWord 0x00008003#32 = .error .reservedBits := by decide
theorem test_decode_table_word : decodeTableWord 32 0x00800004 = some (.thresh 128) := by decide

/-! One command each, from the spec's vectors. -/

/-- V40 -/
theorem test_neg : after .neg (image 3 2 8 [0, 1, 127, 128, 254, 255]) 0x1000 6 = some [255, 254, 128, 127, 1, 0] := by
  decide +kernel
/-- V42 -/
theorem test_gray : after .gray (image 2 2 24 [10, 20, 30, 255, 0, 0, 255, 255, 254, 1, 1, 0]) 0x1000 12 =
    some [20, 20, 20, 85, 85, 85, 254, 254, 254, 0, 0, 0] := by decide +kernel
/-- V44 -/
theorem test_bright_up : after (.bright 20) (image 6 1 8 [0, 100, 235, 236, 250, 255]) 0x1000 6 =
    some [20, 120, 255, 255, 255, 255] := by decide +kernel
/-- V45 -/
theorem test_bright_down : after (.bright (-50)) (image 6 1 8 [0, 10, 49, 50, 51, 255]) 0x1000 6 =
    some [0, 0, 0, 0, 1, 205] := by decide +kernel
/-- V51 -/
theorem test_thresh : after (.thresh 128) (image 6 1 8 [0, 85, 127, 128, 170, 255]) 0x1000 6 =
    some [0, 0, 0, 255, 255, 255] := by decide +kernel
/-- V53 -/
theorem test_thresh_negative : after (.thresh (-1)) (image 3 1 8 [0, 1, 255]) 0x1000 3 = some [255, 255, 255] := by
  decide +kernel
/-- V29: the kernel is not flipped, and the border is copied. -/
theorem test_conv_orientation : after .conv (withKernel (image 3 3 8 [1, 2, 3, 4, 5, 6, 7, 8, 9]) 3 1
    [0, 0, 0, 0, 0, 1, 0, 0, 0]) 0x2000 9 = some [1, 2, 3, 4, 6, 6, 7, 8, 9] := by decide +kernel
/-- V37: each channel by itself. -/
theorem test_conv_colour : after .conv (withKernel (image 3 3 24 [0, 255, 0, 10, 245, 37, 20, 235, 74, 30, 225, 111, 40, 215,
    148, 50, 205, 185, 60, 195, 222, 70, 185, 3, 80, 175, 40]) 3 9 [1, 1, 1, 1, 1, 1, 1, 1, 1]) 0x200C 3 =
    some [40, 215, 91] := by decide +kernel
/-- V61: a tie goes up. -/
theorem test_equal : after .equal (image 2 2 8 [50, 50, 100, 200]) 0x1000 4 = some [0, 0, 128, 255] := by decide +kernel
/-- V68 -/
theorem test_equal_colour : after .equal (image 2 2 24 [200, 100, 50, 100, 150, 200, 30, 30, 30, 250, 250, 250]) 0x1000 12 =
    some [161, 61, 11, 129, 179, 229, 0, 0, 0, 255, 255, 255] := by decide +kernel

/-! Validation (95_test_vectors.md 2.3). -/

/-- V15b: `E_DIM` comes before `E_RANGE`. -/
theorem test_dim_first : report .neg { base with imgHeight := 0#32, imgBase := 0xFFFFFFFF#32 } = some 0x306#32 := by
  decide +kernel
/-- V17g: a wrapped product would wrongly pass. -/
theorem test_range_no_wrap : report .neg { base with imgWidth := 0x10000#32, imgHeight := 0x10000#32, imgBase := 0#32 } =
    some 0x706#32 := by decide +kernel
/-- V18d, V18e: one shared byte is an overlap. -/
theorem test_overlap : report .conv { base with outBase := 0x0FF1#32 } = some 0x806#32 ∧
    report .conv { base with outBase := 0x3020#32 } = some 0x806#32 := by decide +kernel
/-- V18c, V18f: adjacent buffers are none. -/
theorem test_no_overlap : validate .conv { base with outBase := 0x1010#32 } = .none ∧
    validate .conv { base with outBase := 0x3024#32 } = .none := by decide +kernel

/-! Registers and the command cycle (95_test_vectors.md 2.1). -/

/-- V2, V3, V5 -/
theorem test_hard_wired : readBack base 0x00 0x12345678#32 .id = some 0x50430001#32 ∧
    readBack base 0x04 0xFFFFFFFF#32 .ctrl = some 1#32 ∧ readBack base 0x3C 0xFFFFFFFF#32 .reserved = some 0#32 := by
  decide +kernel
/-- V7, V8 -/
theorem test_acknowledge : readBack idleReported 0x08 0xFFFFFFFD#32 .status = some 0x206#32 ∧
    readBack idleReported 0x08 2#32 .status = some 0#32 := by decide +kernel
/-- V11 -/
theorem test_issue : readBack idleReported 0x0C 1#32 .status = some 1#32 ∧
    readBack idleReported 0x0C 1#32 .cmd = some 1#32 := by decide +kernel
/-- V12 -/
theorem test_busy_discards : readBack (base.issue 1#32) 0x14 99#32 .imgWidth = some 4#32 ∧
    readBack (base.issue 1#32) 0x0C 6#32 .cmd = some 1#32 ∧ readBack (base.issue 1#32) 0x08 2#32 .status = some 1#32 ∧
    readBack (base.issue 1#32) 0x04 1#32 .ctrl = some 0#32 := by decide +kernel
/-- V13, with the fetch hook: the word placed is what the very next step executes. -/
theorem test_after_reset : (stateOf (step (State.reset.withFetchWord 32 1))).map (fun t => t.status.word) =
    some 0x206#32 := by decide +kernel
/-- 10_state.md R29, R30: stray accesses are refused. -/
theorem test_stray_access : regAccess 0x40 4 = .error .offsetOutsideBlock ∧ regAccess 0x02 4 = .error .notAlignedWord ∧
    regAccess 0x04 2 = .error .notAlignedWord := by decide
/-- 00_scope.md R11: the examples of `fdiv` and `rnd`. -/
theorem test_rounding : fdiv (-1) 4 = -1 ∧ fdiv 7 2 = 3 ∧ rnd 5 2 = 3 ∧ rnd 3 2 = 2 ∧ rnd (-1) 2 = 0 ∧ rnd (-3) 2 = -1 ∧
    rnd 1 3 = 0 ∧ rnd 2 3 = 1 := by decide
/-- 30_encoding.md R67: a command line is a write of its word and a wait. -/
theorem test_program : hostProgram [.command (.thresh 128), .memw32 0x3000 [-2]] = [.regWrite 0x0C 4 0x00800004#32, .wait,
    .memWrite 0x3000 0xFE#8, .memWrite 0x3001 0xFF#8, .memWrite 0x3002 0xFF#8, .memWrite 0x3003 0xFF#8] := by
  decide +kernel
/-- 44_host_codec.md R137, on V29: after one `CONV`, waited for, the read-back takes the image from the other buffer. -/
theorem test_read_back :
    (let s := withKernel (image 3 3 8 [1, 2, 3, 4, 5, 6, 7, 8, 9]) 3 1 [0, 0, 0, 0, 0, 1, 0, 0, 0]
     match core.run 3 { s.issue 5#32 with inputs := [.wait] } with
     | .next t => match t.readBackImage ⟨[], [], 3, 3, 8, []⟩ with
       | .next (_, img) => img.pixels.map BitVec.toNat
       | _ => []
     | _ => []) = [1, 2, 3, 4, 6, 6, 7, 8, 9] := by decide +kernel
/-- T10, by the formula of 44_host_codec.md R130. -/
theorem test_padding : [1, 2, 3, 4, 5].map rowPadding = [1, 2, 3, 0, 1] := by decide

/-! Witnesses: for each statement with hypotheses, concrete states and operands that meet them together. -/

def gray8 : State := image 2 2 8 [50, 50, 100, 200]
def colour : State := image 2 1 24 [200, 100, 50, 30, 30, 30]
def convolved : State := withKernel (image 3 3 8 [1, 2, 3, 4, 5, 6, 7, 8, 9]) 3 1 [0, 0, 0, 0, 1, 0, 0, 0, 0]
def convolvedColour : State := withKernel (image 1 1 24 [1, 2, 3]) 1 5 [5]
/-- Image and kernel exactly end their room: `IB + ISIZE = MEM_BYTES`. -/
def atTheTop : State := { gray8 with imgBase := 0xFFFC#32 }
def running (w : Word) : State := gray8.issue w

theorem imageReady_gray8 : gray8.ImageReady := ⟨by decide, by decide, by decide⟩
theorem imageReady_colour : colour.ImageReady := ⟨by decide, by decide, by decide⟩
theorem imageReady_atTheTop : atTheTop.ImageReady := ⟨by decide, by decide, by decide⟩
theorem imageReady_convolved : convolved.ImageReady := ⟨by decide, by decide, by decide⟩
theorem imageReady_convolvedColour : convolvedColour.ImageReady := ⟨by decide, by decide, by decide⟩
theorem kernelReady_convolved : convolved.KernelReady :=
  ⟨by decide, by decide, by decide, by decide, by decide, by decide, by decide⟩
theorem kernelReady_convolvedColour : convolvedColour.KernelReady :=
  ⟨by decide, by decide, by decide, by decide, by decide, by decide, by decide⟩
theorem inv_running : (running 1#32).Inv := ⟨by decide, by decide, by decide, by decide, by decide⟩
theorem inv_gray8 : gray8.Inv := ⟨by decide, by decide, by decide, by decide, by decide⟩

theorem witness_EncodedCommandsDecodeBack : (Instr.bright (-32768)).wf = true ∧ (Instr.thresh 32767).wf = true := by decide
theorem witness_DecodedWordsEncodeBack : decodeWord 0x80000003#32 = .ok (.bright (-32768)) := by decide
theorem witness_ImmediateIsTheSignedHighHalf :
    (decodeWord 0x7FFF0003#32 = .ok (.bright 32767) ∧ (0x7FFF0003#32).toNat / 65536 < 32768) ∧
    (decodeWord 0x80000004#32 = .ok (.thresh (-32768)) ∧ 32768 ≤ (0x80000004#32).toNat / 65536) := by decide
theorem witness_CmdWriteIssues :
    (let s := { gray8 with inputs := [.regWrite 0x0C 4 1#32] }
     s.inputs = .regWrite 0x0C 4 1#32 :: [] ∧ s.status.busy = false) ∧
    (let s := { running 1#32 with inputs := [.regWrite 0x0C 4 6#32] }
     s.inputs = .regWrite 0x0C 4 6#32 :: [] ∧ s.status.busy = true) := by decide
theorem witness_StepExecutesDecodedCommand :
    ((running 1#32).status.busy = true ∧ decodeWord (running 1#32).cmd = .ok .neg ∧ (running 1#32).inputs = []) ∧
    (let s := { running 1#32 with inputs := [.engine] }
     s.status.busy = true ∧ decodeWord s.cmd = .ok .neg ∧ s.inputs = .engine :: []) := by decide
/-- Each clause at its boundaries: `OP` 0, 7 and 15; `RSV` 1 and 0x800; `IMM` 1 on `NEG` and 0x8000 on `EQUAL`. -/
theorem witness_IllegalWordEndsWithEOp :
    (∀ w, (running w).status.busy = true ∧ (running w).engineNext [] ∧ (running w).cmd = w) ∧
    (∀ w, State.engineNext { running w with inputs := [.engine, .wait] } [.wait]) ∧
    (0x00000000#32).toNat % 16 = 0 ∧ 7 ≤ (0x00000007#32).toNat % 16 ∧ 7 ≤ (0x0000000F#32).toNat % 16 ∧
    (0x00000011#32).toNat / 16 % 4096 ≠ 0 ∧ (0x00008003#32).toNat / 16 % 4096 ≠ 0 ∧
    ((0x00010001#32).toNat % 16 ∈ [1, 2, 5, 6] ∧ (0x00010001#32).toNat / 65536 ≠ 0) ∧
    ((0x80000006#32).toNat % 16 ∈ [1, 2, 5, 6] ∧ (0x80000006#32).toNat / 65536 ≠ 0) :=
  ⟨fun _ => ⟨rfl, .inl ⟨rfl, rfl⟩, rfl⟩, fun _ => .inr rfl, by decide⟩
theorem witness_RefusedCommandOnlyReports : validate .gray gray8 ≠ .none := by decide
theorem witness_LowestApplicableCodeIsReported : validate .neg gray8 = .none ∧ validate .gray gray8 = .format ∧
    validate .conv { base with krnSize := 4#32, krnDiv := 0#32, krnBase := 0x3001#32 } = .ksize ∧
    (running 7#32).status.busy = true ∧ (running 7#32).engineNext [] ∧
    decodeWord (running 7#32).cmd = .error .unknownOp :=
  ⟨by decide, by decide, by decide, by decide, .inl ⟨rfl, rfl⟩, by decide⟩
theorem witness_EveryCommandReportsCompletion : validate .neg gray8 = .none ∧ validate .gray gray8 ≠ .none := by decide
theorem witness_WaitSeesTheCommandOver :
    (let s := { running 1#32 with inputs := [.wait] }
     s.status.busy = true ∧ s.inputs = .wait :: []) ∧
    (let s := { idleReported with inputs := [.wait] }
     s.status.busy = false ∧ s.inputs = .wait :: []) := by decide
theorem witness_SuccessLeavesOperandsButConvSwaps : validate .neg gray8 = .none ∧ validate .conv convolved = .none := by
  decide
theorem witness_UnreadRegistersHaveNoEffect : Instr.equal ≠ .conv := by decide
theorem witness_CommandWritesOnlyItsFootprint : validate .gray gray8 ≠ .none ∧ Instr.neg ≠ .conv ∧
    (image 2 2 8 [7, 7, 7, 7]).degenerate = true ∧ (image 2 2 8 [7, 7, 7, 7]).disturbed = false := by decide +kernel
theorem witness_NegNegatesTheImage : (gray8.depth = 8 ∧ gray8.ImageReady ∧ gray8.disturbed = false) ∧
    (colour.depth = 24 ∧ colour.ImageReady ∧ colour.disturbed = false) ∧
    (atTheTop.depth = 8 ∧ atTheTop.ImageReady ∧ atTheTop.disturbed = false) :=
  ⟨⟨rfl, imageReady_gray8, rfl⟩, ⟨rfl, imageReady_colour, rfl⟩, ⟨rfl, imageReady_atTheTop, rfl⟩⟩
theorem witness_NegIsAnInvolution : colour.depth = 24 ∧ colour.ImageReady ∧ colour.disturbed = false :=
  ⟨rfl, imageReady_colour, rfl⟩
theorem witness_GrayAveragesEveryPixel : colour.depth = 24 ∧ colour.ImageReady ∧ colour.disturbed = false ∧
    1 < colour.npix ∧ 2 < 3 := ⟨rfl, imageReady_colour, rfl, by decide, by decide⟩
theorem witness_GrayTwiceIsGrayOnce : colour.depth = 24 ∧ colour.ImageReady ∧ colour.disturbed = false :=
  ⟨rfl, imageReady_colour, rfl⟩
theorem witness_BrightAddsAndClamps : (gray8.depth = 8 ∧ gray8.ImageReady ∧ gray8.disturbed = false) ∧
    (colour.depth = 24 ∧ colour.ImageReady ∧ colour.disturbed = false) :=
  ⟨⟨rfl, imageReady_gray8, rfl⟩, ⟨rfl, imageReady_colour, rfl⟩⟩
/-- The byte 200 with `a = 55` reaches 255 exactly and with `a = -200` reaches 0. -/
theorem witness_BrightnessAddsUpUnlessClamped : gray8.depth = 8 ∧ gray8.ImageReady ∧ gray8.disturbed = false ∧
    3 < gray8.isize ∧ ((gray8.byteAt (gray8.ib + 3)).toNat : Int) + 55 = 255 ∧
    ((gray8.byteAt (gray8.ib + 3)).toNat : Int) + (-200) = 0 ∧ (-55 : Int) = -55 :=
  ⟨rfl, imageReady_gray8, rfl, by decide, by decide +kernel, by decide +kernel, rfl⟩
/-- A byte equal to the threshold, and one just below. -/
theorem witness_ThreshBinarizesTheImage : gray8.depth = 8 ∧ gray8.ImageReady ∧ gray8.disturbed = false ∧
    (100 : Int) ≤ (gray8.byteAt (gray8.ib + 2)).toNat ∧ ((gray8.byteAt (gray8.ib + 2)).toNat : Int) < 101 :=
  ⟨rfl, imageReady_gray8, rfl, by decide +kernel, by decide +kernel⟩
theorem witness_ThreshTwiceIsThreshOnce : gray8.depth = 8 ∧ gray8.ImageReady ∧ gray8.disturbed = false ∧ (1 : Int) ≤ 1 ∧
    (255 : Int) ≤ 255 := ⟨rfl, imageReady_gray8, rfl, by decide, by decide⟩
theorem witness_WrongDepthIsRefused : (State.reset.depth ≠ 8 ∧ State.reset.depth ≠ 24) ∧ gray8.depth = 8 ∧
    colour.depth = 24 := by decide
theorem witness_ZeroSizeIsRefused : depthSuits .neg (image 0 4 8 []).depth ∧ (image 0 4 8 []).imgWidth = 0#32 ∧
    depthSuits .gray (image 4 0 24 []).depth ∧ (image 4 0 24 []).imgHeight = 0#32 := by
  refine ⟨.inl rfl, rfl, rfl, rfl⟩
/-- Pixel (1, 1) of a 3 by 3 image is interior, pixel (0, 0) is border. -/
theorem witness_ConvComputesTheOutputBuffer : convolved.depth = 8 ∧ convolved.ImageReady ∧ convolved.KernelReady ∧
    convolved.disturbed = false ∧ convolved.interior 1 1 = true ∧ convolved.interior 0 0 = false :=
  ⟨rfl, imageReady_convolved, kernelReady_convolved, rfl, by decide, by decide⟩
theorem witness_IdentityKernelCopiesTheImage : convolvedColour.depth = 24 ∧ convolvedColour.ImageReady ∧
    convolvedColour.KernelReady ∧ convolvedColour.disturbed = false ∧
    ∀ i < convolvedColour.kn, ∀ j < convolvedColour.kn, convolvedColour.weight i j =
      if i = convolvedColour.kn / 2 ∧ j = convolvedColour.kn / 2 then (convolvedColour.kd : Int) else 0 :=
  ⟨rfl, imageReady_convolvedColour, kernelReady_convolvedColour, rfl, by decide +kernel⟩
theorem witness_OversizedKernelCopiesTheImage :
    let s := { convolved with krnSize := 5#32 }
    s.depth = 8 ∧ s.ImageReady ∧ s.KernelReady ∧ s.disturbed = false ∧ s.W < s.kn ∧ s.H < s.kn :=
  ⟨rfl, ⟨by decide, by decide, by decide⟩, ⟨by decide, by decide, by decide, by decide, by decide, by decide, by decide⟩, rfl, by decide,
    by decide⟩
theorem witness_TwoConvolutionsPingPong : convolved.depth = 8 ∧ convolved.ImageReady ∧ convolved.KernelReady ∧
    convolved.disturbed = false ∧ convolved.ib + convolved.isize ≤ convolved.kb :=
  ⟨rfl, imageReady_convolved, kernelReady_convolved, rfl, by decide⟩
theorem witness_RoundingIsNearestTiesUp : (0 : Int) < 1 := by decide
/-- The weight word 0x80000000, the least, and 0x7FFFFFFF, the most: the top byte is 128 and 127. -/
theorem witness_WeightIsLittleEndianSigned :
    (withKernel gray8 1 1 [0x80000000]).weight 0 0 = -2147483648 ∧
    (withKernel gray8 1 1 [0x7FFFFFFF]).weight 0 0 = 2147483647 := by decide +kernel
theorem witness_LuminanceIsTruncatedWeightedSum : gray8.depth = 8 ∧ colour.depth = 24 := by decide
theorem witness_CdfMinCountsTheDarkest : 0 < (image 1 1 8 [7]).npix := by decide
theorem lowestLum_gray8 : gray8.LowestLum 50 := ⟨⟨0, by decide, by decide +kernel⟩, by decide +kernel⟩
theorem witness_TableSpreadsTheLuminances : 0 < gray8.npix ∧ cdfMin gray8.lums ≠ gray8.npix ∧ gray8.LowestLum (50 : Nat) ∧
    gray8.HighestLum (200 : Nat) :=
  ⟨by decide, by decide +kernel, lowestLum_gray8, ⟨⟨3, by decide, by decide +kernel⟩, by decide +kernel⟩⟩
theorem witness_EqualLeavesDegenerateImages :
    let s := image 2 1 24 [100, 0, 0, 0, 51, 0]
    s.depth = 24 ∧ s.ImageReady ∧ s.npix = cdfMin s.lums ∧ s.disturbed = false :=
  ⟨rfl, ⟨by decide, by decide, by decide⟩, by decide +kernel, rfl⟩
theorem witness_EqualRemapsEightBitPixels : gray8.depth = 8 ∧ gray8.ImageReady ∧ gray8.disturbed = false ∧
    gray8.LowestLum 50 ∧ gray8.countUpTo 50 ≠ gray8.npix :=
  ⟨rfl, imageReady_gray8, rfl, lowestLum_gray8, by decide +kernel⟩
theorem lowestLum_colour : colour.LowestLum 30 := ⟨⟨1, by decide, by decide +kernel⟩, by decide +kernel⟩
theorem witness_EqualRebuildsColourPixels : colour.depth = 24 ∧ colour.ImageReady ∧ colour.disturbed = false ∧
    colour.LowestLum 30 ∧ colour.countUpTo 30 ≠ colour.npix :=
  ⟨rfl, imageReady_colour, rfl, lowestLum_colour, by decide +kernel⟩
theorem witness_EqualKeepsGrayPixelsGray : colour.depth = 24 ∧ colour.ImageReady ∧ colour.disturbed = false ∧
    colour.npix ≠ cdfMin colour.lums ∧ 1 < colour.npix ∧ ∀ c < 3, colour.byteAt (colour.ib + 3 * 1 + c) = 30#8 :=
  ⟨rfl, imageReady_colour, rfl, by decide +kernel, by decide, by decide +kernel⟩
theorem witness_EqualTwiceIsEqualOnceWhenInjective : gray8.depth = 8 ∧ gray8.ImageReady ∧ gray8.disturbed = false ∧
    ∀ p < gray8.npix, ∀ q < gray8.npix, equalizedAt gray8.lums (gray8.lumAt p) = equalizedAt gray8.lums (gray8.lumAt q) →
      gray8.lumAt p = gray8.lumAt q := ⟨rfl, imageReady_gray8, rfl, by decide +kernel⟩
theorem witness_InterruptIsDoneAndEnabled : gray8.status.busy = false ∧ (0xFFFFFFFE#32).getLsbD 0 = false ∧
    (1#32).getLsbD 0 = true := by decide
/-- A `CMD` write that raises `BUSY`, and a turn of the engine that raises `DONE`. -/
theorem witness_BusyAndDoneHaveOneSource :
    (stateOf (step { gray8 with inputs := [.regWrite 0x0C 4 1#32] })).map (fun t => t.status.busy) = some true ∧
    gray8.status.busy = false ∧ (stateOf (step (running 1#32))).map (fun t => t.status.done) = some true ∧
    (running 1#32).status.done = false := by decide +kernel
theorem witness_StatusWriteAcknowledges : idleReported.status.busy = false ∧ (2#32).getLsbD 1 = true ∧
    (0xFFFFFFFD#32).getLsbD 1 = false ∧ (running 1#32).status.busy = true := by decide
theorem witness_BusyDiscardsRegisterWrites :
    let s := { running 1#32 with inputs := [.regWrite 0x3C 4 2#32] }
    s.status.busy = true ∧ 0x3C % 4 = 0 ∧ 0x3C < 0x40 ∧ s.inputs = .regWrite 0x3C 4 2#32 :: [] := by decide
/-- `STATUS` while busy, and the last reserved offset. -/
theorem witness_RegisterReadsHaveNoEffect :
    (let s := { running 1#32 with inputs := [.regRead 0x08 4] }
     s.Inv ∧ Reg.status.standsAt 0x08 ∧ s.inputs = .regRead 0x08 4 :: [] ∧ s.status.busy = true) ∧
    (let s := { running 1#32 with inputs := [.regRead 0x3C 4] }
     s.Inv ∧ Reg.reserved.standsAt 0x3C ∧ s.inputs = .regRead 0x3C 4 :: []) :=
  ⟨⟨⟨by decide, by decide, by decide, by decide, by decide⟩, .inl rfl, by decide, by decide⟩,
    ⟨by decide, by decide, by decide, by decide, by decide⟩, .inr ⟨rfl, by decide⟩, by decide⟩
/-- The first and the last operand register, each control register, and the reserved offsets. -/
theorem witness_RegistersReadBackWhatTheyStore :
    (∀ offset v, State.status { gray8 with inputs := [.regWrite offset 4 v] } = ⟨false, false, false, .none⟩) ∧
    Reg.id.standsAt 0x00 ∧ Reg.ctrl.standsAt 0x04 ∧ Reg.status.standsAt 0x08 ∧ Reg.cmd.standsAt 0x0C ∧
    Reg.imgBase.standsAt 0x10 ∧ Reg.krnDiv.standsAt 0x2C ∧ Reg.reserved.standsAt 0x30 ∧ Reg.reserved.standsAt 0x34 ∧
    Reg.reserved.standsAt 0x38 ∧ Reg.reserved.standsAt 0x3C :=
  ⟨fun _ _ => rfl, .inl rfl, .inl rfl, .inl rfl, .inl rfl, .inl rfl, .inl rfl, .inl rfl, .inr ⟨rfl, by decide⟩,
    .inr ⟨rfl, by decide⟩, .inr ⟨rfl, by decide⟩⟩
theorem witness_ResetRestoresRegisters :
    let s := { gray8 with inputs := [.reset] }
    s.inputs = .reset :: [] ∧ s.status.busy = false := by decide
theorem witness_ResetAbandonsTheCommand :
    (let s := { running 1#32 with inputs := [.reset] }
     s.status.busy = true ∧ decodeWord s.cmd = .ok .neg ∧ s.inputs = .reset :: []) ∧
    (let s := { convolved.issue 5#32 with inputs := [.reset] }
     s.status.busy = true ∧ decodeWord s.cmd = .ok .conv ∧ s.inputs = .reset :: []) ∧
    validate .gray (running 2#32) ≠ .none ∧
    (let s := { running 7#32 with inputs := [.reset] }
     s.status.busy = true ∧ decodeWord s.cmd = .error .unknownOp ∧ s.inputs = .reset :: []) := by decide
theorem witness_AfterResetEveryCommandIsRefused : Reg.ctrl ≠ .id := by decide
theorem witness_IdleEngineDoesNothing : gray8.status.busy = false ∧ gray8.inputs = [] := by decide
theorem witness_StepKeepsTheInvariant : (running 1#32).Inv ∧ (stateOf (step (running 1#32))).isSome = true :=
  ⟨inv_running, by decide +kernel⟩
/-- The byte after the running command's image is free to be written, and read, by the host. -/
theorem witness_HandsOffUsesUpNoFreeValue :
    let s := { running 1#32 with inputs := [.memWrite 0x1004 7#8] }
    s.handsOff ∧ s.disturbed = false ∧ s.inputs.head? ≠ some .reset ∧ (stateOf (step s)).isSome = true :=
  ⟨⟨by decide +kernel, by decide +kernel⟩, rfl, by decide, by decide +kernel⟩
/-- Idle at both ends of memory; and while a `CONV` runs, a write just after its kernel and a read of its image, whose
read-back is allowed too. -/
theorem witness_HostReadsTheByteLastWritten :
    (gray8.runningBuffers = none ∧ gray8.unseen = [] ∧ 0xFFFF < gray8.memBytes ∧ 0 < gray8.memBytes) ∧
    (let s := convolved.issue 5#32
     s.runningBuffers.isSome = true ∧ s.runningBuffers.any (·.covers 0x3024) = false ∧
     s.unseen.any (·.covers 0x3024) = false ∧ s.ib + s.isize ≤ s.memBytes ∧
     ∀ k < s.isize, s.runningBuffers.any (·.written (s.ib + k)) = false ∧
       s.unseen.any (·.written (s.ib + k)) = false) := by decide +kernel
theorem witness_HostWriteElsewhereCommutesWithExecute : (running 1#32).Inv ∧ (running 1#32).status.busy = true ∧
    (running 1#32).disturbed = false ∧ 0x1004 < (running 1#32).memBytes ∧
    (running 1#32).runningBuffers.any (·.covers 0x1004) = false ∧
    (running 1#32).unseen.any (·.covers 0x1004) = false :=
  ⟨inv_running, rfl, rfl, by decide, by decide +kernel, by decide +kernel⟩

/-- An 8-bit file: offset 1078, width 1, height 1, depth 8, one pixel. -/
def file8 : List Byte :=
  List.replicate 10 0#8 ++ [0x36#8, 0x04#8, 0#8, 0#8] ++ List.replicate 4 0#8 ++ [1#8, 0#8, 0#8, 0#8, 1#8, 0#8, 0#8, 0#8, 0#8,
    0#8, 8#8, 0#8] ++ List.replicate 24 0#8 ++ List.replicate 1024 3#8 ++ [77#8]
def image8 : Image := ⟨file8.take 54, List.replicate 1024 3#8, 1, 1, 8, [77#8]⟩
theorem witness_EightBitCodecRoundTrips : load8 1 (some file8) = .ok image8 ∧ fieldLE file8 10 4 = 54 + 1024 ∧
    file8.length = 54 + 1024 + image8.width * image8.height := by decide +kernel

/-- A 24-bit file with a ten-byte header of width, height and depth, two pixels high: rows bottom to top, blue first, one
byte of padding. -/
def layout24 : HeaderLayout := ⟨10, 0, 4, 8⟩
def file24 : List Byte := [1#8, 0#8, 0#8, 0#8, 2#8, 0#8, 0#8, 0#8, 24#8, 0#8, 1#8, 2#8, 3#8, 0#8, 4#8, 5#8, 6#8, 0#8]
def image24 : Image := ⟨file24.take 10, [], 1, 2, 24, [6#8, 5#8, 4#8, 3#8, 2#8, 1#8]⟩
theorem witness_ColourCodecRoundTrips : load24 layout24 6 (some file24) = .ok image24 ∧
    file24.length = layout24.size + image24.height * rowStride image24.width ∧
    ∀ k < image24.height, ∀ j < rowPadding image24.width,
      file24[layout24.size + k * rowStride image24.width + image24.width * 3 + j]? = some 0#8 := by decide +kernel

end Checks

end Sys2Proof.Tests
end

section
/-! The register block, the step's inversion and the invariant: the statements of 10_state.md. -/

namespace Sys2Proof.Machine

/-! Register accesses (10_state.md R15, R29, R30). -/

/-- A register access that has a meaning is a 32-bit one at the offset where its register stands. -/
theorem regAccess_ok_iff_standsAt {offset size : Nat} {r : Reg} :
    regAccess offset size = .ok r ↔ size = 4 ∧ r.standsAt offset := by
  constructor
  · intro h
    obtain ⟨rfl, ha, ho⟩ := (regAccess_ok_iff offset size).1 ⟨r, h⟩
    refine ⟨rfl, ?_⟩
    obtain ⟨n, rfl⟩ : ∃ n, offset = 4 * n := ⟨offset / 4, by omega⟩
    have hn : n < 16 := by omega
    interval_cases n <;> cases h <;> simp [Reg.standsAt, Reg.offset]
  · rintro ⟨rfl, h⟩
    exact regAccess_standsAt h

/-- `CMD` stands at offset 0x0C alone. -/
theorem regAccess_eq_cmd {offset size : Nat} (h : regAccess offset size = .ok .cmd) : offset = 0x0C ∧ size = 4 := by
  obtain ⟨hsize, hoff | ⟨hr, -⟩⟩ := regAccess_ok_iff_standsAt.1 h
  · exact ⟨hoff, hsize⟩
  · cases hr

theorem State.regRead_eq_next_iff {s t : State} {offset size : Nat} :
    s.regRead offset size = .next t ↔ ∃ r, regAccess offset size = .ok r ∧ t = s.hostReadReg r := by
  unfold State.regRead
  cases regAccess offset size <;> simp [eq_comm]

theorem State.regWrite_eq_next_iff {s t : State} {offset size : Nat} {v : Word} :
    s.regWrite offset size v = .next t ↔ ∃ r, regAccess offset size = .ok r ∧ t = s.writeReg r v := by
  unfold State.regWrite
  cases regAccess offset size <;> simp [eq_comm]

theorem State.writeReg_of_busy {s : State} (h : s.status.busy = true) (r : Reg) (v : Word) : s.writeReg r v = s :=
  if_pos h

theorem State.writeReg_of_idle {s : State} (h : s.status.busy = false) (r : Reg) (v : Word) :
    s.writeReg r v = s.writeIdleReg v r := by
  simp [State.writeReg, h]

/-- The list of inputs is no register. -/
theorem State.readReg_withInputs (s : State) (l : List Input) (r : Reg) :
    State.readReg { s with inputs := l } r = s.readReg r := by
  cases r <;> rfl

/-- A register read that uses up its input leaves the operand registers alone (10_state.md R32). -/
theorem State.sameOperands_hostReadReg (s : State) (l : List Input) (r : Reg) :
    s.SameOperands (State.hostReadReg { s with inputs := l } r) := by
  constructor
  · constructor <;> simp
  all_goals simp

/-! What a register write leaves alone. -/

/-- A register write changes registers and the mark of a disturbed command at most. -/
theorem State.writeIdleReg_frame (s : State) (v : Word) (r : Reg) :
    s.writeIdleReg v r = { s.writeIdleReg v r with
      mem := s.mem, memLast := s.memLast, inputs := s.inputs, reply := s.reply, unseen := s.unseen
      freeIdx := s.freeIdx } := by
  cases r with
  | status => simp only [State.writeIdleReg]; split <;> rfl
  | _ => rfl

@[simp] theorem State.writeIdleReg_mem (s : State) (v : Word) (r : Reg) : (s.writeIdleReg v r).mem = s.mem := by
  rw [State.writeIdleReg_frame]
@[simp] theorem State.writeIdleReg_memLast (s : State) (v : Word) (r : Reg) :
    (s.writeIdleReg v r).memLast = s.memLast := by
  rw [State.writeIdleReg_frame]
@[simp] theorem State.writeIdleReg_inputs (s : State) (v : Word) (r : Reg) :
    (s.writeIdleReg v r).inputs = s.inputs := by
  rw [State.writeIdleReg_frame]
@[simp] theorem State.writeIdleReg_reply (s : State) (v : Word) (r : Reg) :
    (s.writeIdleReg v r).reply = s.reply := by
  rw [State.writeIdleReg_frame]
@[simp] theorem State.writeIdleReg_unseen (s : State) (v : Word) (r : Reg) :
    (s.writeIdleReg v r).unseen = s.unseen := by
  rw [State.writeIdleReg_frame]
@[simp] theorem State.writeIdleReg_freeIdx (s : State) (v : Word) (r : Reg) :
    (s.writeIdleReg v r).freeIdx = s.freeIdx := by
  rw [State.writeIdleReg_frame]

/-- What an idle register write does to `STATUS`: it issues, or acknowledges, or leaves it alone. -/
theorem State.writeIdleReg_status (s : State) (v : Word) (r : Reg) :
    (s.writeIdleReg v r).status =
      if r = .cmd then .issued else if r = .status ∧ v.getLsbD 1 = true then s.status.acknowledged else s.status := by
  cases r with
  | status => cases h : v.getLsbD 1 <;> simp only [State.writeIdleReg, h] <;> rfl
  | _ => rfl

/-- Only issuing a command touches the mark of a disturbed command. -/
theorem State.writeIdleReg_disturbed (s : State) (v : Word) (r : Reg) :
    (s.writeIdleReg v r).disturbed = if r = .cmd then false else s.disturbed := by
  cases r with
  | status => cases h : v.getLsbD 1 <;> simp only [State.writeIdleReg, h] <;> rfl
  | _ => rfl

/-! The `STATUS` word and its legal values (10_state.md R27). -/

theorem getLsbD_bitAt (b : Bool) {n : Nat} (hn : n < 32) (i : Nat) :
    (bitAt b n).getLsbD i = (b && decide (i = n)) := by
  cases b with
  | false => simp [bitAt]
  | true =>
    rw [bitAt, if_pos rfl, BitVec.getLsbD_shiftLeft, BitVec.getLsbD_one, Bool.eq_iff_iff]
    simp only [Nat.ofNat_pos, decide_true, Bool.true_and, Bool.and_eq_true, decide_eq_true_eq, Bool.not_eq_eq_eq_not,
      Bool.not_true, decide_eq_false_iff_not, not_lt]
    omega

/-- Each bit of the `STATUS` word: `BUSY` at 0, `DONE` at 1, `ERR` at 2, `ERRCODE` from 8 on. -/
theorem Status.getLsbD_word (st : Status) (i : Nat) : st.word.getLsbD i =
    (st.busy && decide (i = 0) || st.done && decide (i = 1) || st.err && decide (i = 2) ||
      (decide (8 ≤ i) && st.errcode.code.getLsbD (i - 8))) := by
  have hcode : (st.errcode.code.setWidth 32 <<< 8 : Word).getLsbD i =
      (decide (8 ≤ i) && st.errcode.code.getLsbD (i - 8)) := by
    by_cases h8 : 8 ≤ i
    · by_cases h12 : i < 12
      · simp [h8, show i < 32 by omega]
      · simp [h8, BitVec.getLsbD_of_ge st.errcode.code (i - 8) (by omega)]
    · simp [h8]
  simp only [Status.word, BitVec.getLsbD_or, getLsbD_bitAt _ (show 0 < 32 by omega),
    getLsbD_bitAt _ (show 1 < 32 by omega), getLsbD_bitAt _ (show 2 < 32 by omega), hcode]

theorem Status.word_issued : Status.issued.word = 1#32 := by decide

theorem Status.legal_idle : Status.idle.legal := by decide

theorem Status.legal_issued : Status.issued.legal := by decide

theorem Status.legal_completed (e : ErrCode) : (Status.completed e).legal := by simp [Status.legal, Status.completed]

theorem Status.acknowledged_of_idle {st : Status} (h : st.busy = false) : st.acknowledged = .idle := by
  simp [Status.acknowledged, Status.idle, h]

/-- From issue to completion a legal `STATUS` is `BUSY` alone (10_state.md R32). -/
theorem Status.legal.eq_issued {st : Status} (h : st.legal) (hb : st.busy = true) : st = .issued := by
  obtain ⟨hexcl, hcode, hreport⟩ := h
  have hdone : st.done = false := by simpa [hb] using hexcl
  have herr : st.err = false := by simpa [hdone] using hreport
  have hnone : st.errcode = .none := by simpa [herr] using hcode
  cases st
  simp_all [Status.issued]

/-! What a register reads after a write while idle (10_state.md R17 to R29). -/

/-- The eight operand registers and `CMD` keep the whole word. -/
theorem State.readReg_writeIdleReg_same (s : State) (v : Word) {r : Reg}
    (h : r ∈ [Reg.imgBase, .imgWidth, .imgHeight, .imgDepth, .outBase, .krnBase, .krnSize, .krnDiv, .cmd]) :
    (s.writeIdleReg v r).readReg r = v := by
  cases r with
  | id | ctrl | status | reserved => simp at h
  | _ => rfl

/-- A write to one register is not seen in another, but for the issue a write to `CMD` causes in `STATUS`. -/
theorem State.readReg_writeIdleReg_ne (s : State) (v : Word) {r q : Reg} (h : q ≠ r) (hc : r = .cmd → q ≠ .status) :
    (s.writeIdleReg v r).readReg q = s.readReg q := by
  cases r with
  | id | reserved => rfl
  | status =>
    cases q with
    | status => exact absurd rfl h
    | _ => cases hv : v.getLsbD 1 <;> simp only [State.writeIdleReg, hv] <;> rfl
  | cmd =>
    cases q with
    | cmd => exact absurd rfl h
    | status => exact absurd rfl (hc rfl)
    | _ => rfl
  | _ => cases q <;> simp [State.writeIdleReg, State.readReg] at h ⊢

theorem Ctrl.word_ofWord (v : Word) : (Ctrl.ofWord v).word = v &&& 1#32 := by
  refine BitVec.eq_of_getLsbD_eq fun i hi => ?_
  rw [Ctrl.word, Ctrl.ofWord, getLsbD_bitAt _ (by omega), BitVec.getLsbD_and, BitVec.getLsbD_one]
  by_cases h : i = 0 <;> simp [h]

/-- While idle an acknowledge leaves `STATUS` reading 0. -/
theorem State.statusWord_writeIdleReg {s : State} (hb : s.status.busy = false) (v : Word) :
    (s.writeIdleReg v .status).readReg .status = if v.getLsbD 1 then 0#32 else s.readReg .status := by
  cases hv : v.getLsbD 1
  · simp only [State.writeIdleReg, hv]
    rfl
  · simp only [State.writeIdleReg, hv, State.readReg, if_true, State.acknowledge_status,
      Status.acknowledged_of_idle hb]
    rfl

/-! Everything one input can do. -/

@[simp] theorem performOf_memLast (i : Instr) (s : State) : (performOf i s).memLast = s.memLast := by rw [performOf_frame]

/-- With nothing listed a step is the engine's turn, as if that were the oldest input (log 3). -/
theorem step_eq_take (s : State) :
    step s = State.take { s with inputs := s.inputs.tail } (s.inputs.headD .engine) := by
  rw [step_of_inputs]
  cases h : s.inputs with
  | nil => cases s; cases h; rfl
  | cons e rest => rfl

/-- When the next thing to happen is the engine's turn, nothing is listed or that turn is the oldest input. -/
theorem engine_oldest {l : List Input} (h : l.headD .engine = .engine) : l = [] ∨ l.head? = some .engine := by
  cases l with
  | nil => exact .inl rfl
  | cons e rest => exact .inr (congrArg some h)

/-- When the next thing to happen is not the engine's turn, it is listed. -/
theorem listed_oldest {l : List Input} {e : Input} (h : l.headD .engine = e) (he : e ≠ .engine) : l = e :: l.tail := by
  cases l with
  | nil => exact absurd h.symm he
  | cons e' rest => exact congrArg (· :: rest) h

/-- A step whose input reads a register: that register read, the input used up. -/
theorem step_regRead {s : State} {r : Reg} {offset : Nat} {rest : List Input} (hr : r.standsAt offset)
    (hin : s.inputs = .regRead offset 4 :: rest) :
    step s = .next (State.hostReadReg { s with inputs := rest } r) := by
  rw [step_of_inputs, hin]
  exact State.regRead_eq_next_iff.2 ⟨r, regAccess_standsAt hr, rfl⟩

/-- A step whose input writes a register: that register written, the input used up. -/
theorem step_regWrite {s : State} {r : Reg} {offset : Nat} {v : Word} {rest : List Input} (hr : r.standsAt offset)
    (hin : s.inputs = .regWrite offset 4 v :: rest) :
    step s = .next (State.writeReg { s with inputs := rest } r v) := by
  rw [step_of_inputs, hin]
  exact State.regWrite_eq_next_iff.2 ⟨r, regAccess_standsAt hr, rfl⟩

/-- Everything the engine's turn can answer: nothing done while idle, an error reported, or an accepted command performed and
completed (40_command_cycle.md R74 to R78). -/
theorem engineTurn_inv {s t : State} (h : s.engineTurn = .next t) :
    (s.status.busy = false ∧ t = s) ∨
    (s.status.busy = true ∧ ∃ e, t = s.raiseError e) ∨
    (s.status.busy = true ∧ ∃ i, validate i s = .none ∧
      t = { (performOf i s).complete .none with unseen := s.buffersOf i :: s.unseen }) := by
  rcases engineTurn_cases s with ⟨hb, h'⟩ | ⟨hb, _, -, h'⟩ | ⟨hb, i, -, h'⟩
  · rw [h'] at h; cases h
    exact .inl ⟨hb, rfl⟩
  · rw [h'] at h; cases h
    exact .inr (.inl ⟨hb, _, rfl⟩)
  · rw [h'] at h
    rcases exec_cases i s with ⟨-, hx⟩ | ⟨hv, hx⟩
    · rw [hx] at h; cases h
      exact .inr (.inl ⟨hb, _, rfl⟩)
    · rw [hx] at h; cases h
      exact .inr (.inr ⟨hb, i, hv, rfl⟩)

/-- Everything a host read of memory can answer: the byte as it stands, or a free value with the destinations of some unseen
commands forgotten (20_memory.md R40, R54). -/
theorem hostRead_inv {s t : State} {a : Nat} (h : s.hostRead a = .next t) :
    a < s.memBytes ∧
    ((∃ w, t = { s with reply := some w }) ∨
    ∃ bs ⊆ s.unseen, ∃ w n, t = { s.forgetTargets bs with
      reply := some w, freeIdx := n, disturbed := s.disturbed || s.runningBuffers.any (·.written a) }) := by
  unfold State.hostRead at h
  split_ifs at h with ha hw
  · cases h
    exact ⟨by omega, .inr ⟨_, List.filter_subset_self _, _, _, rfl⟩⟩
  · cases h
    exact ⟨by omega, .inl ⟨_, rfl⟩⟩

/-- What a host write to memory answers: the byte written, and the destinations of some unseen commands forgotten
(20_memory.md R40, R54). -/
theorem hostWrite_inv {s t : State} {a : Nat} {v : Byte} (h : s.hostWrite a v = .next t) :
    a < s.memBytes ∧ ∃ bs ⊆ s.unseen, t = { (s.setByte a v).forgetTargets bs with
      disturbed := s.disturbed || s.runningBuffers.any (·.covers a) } := by
  unfold State.hostWrite at h
  split_ifs at h with ha
  cases h
  exact ⟨by omega, _, List.filter_subset_self _, rfl⟩

/-- Only a busy engine runs a command. -/
theorem State.busy_of_runningBuffers {s : State} {p : Buffers → Bool} (h : s.runningBuffers.any p = true) :
    s.status.busy = true := by
  unfold State.runningBuffers at h
  cases hr : s.running with
  | none => simp [hr] at h
  | some i => exact (State.running_eq_some.1 hr).1

/-- Everything an input can do to `STATUS`: leave it alone, complete the running command by the engine's turn, issue by a
write to `CMD`, or clear it. -/
theorem take_status_cases {s t : State} {e : Input} (h : s.take e = .next t) :
    t.status = s.status ∨
    (e = .engine ∧ s.status.busy = true ∧ ∃ c, t.status = .completed c) ∨
    (∃ w, e = .regWrite 0x0C 4 w ∧ t = s.issue w) ∨
    t.status = .idle := by
  cases e with
  | engine =>
    rcases engineTurn_inv h with ⟨-, rfl⟩ | ⟨hb, c, rfl⟩ | ⟨hb, i, -, rfl⟩
    · exact .inl rfl
    · exact .inr (.inl ⟨rfl, hb, c, rfl⟩)
    · exact .inr (.inl ⟨rfl, hb, .none, rfl⟩)
  | regRead offset size =>
    obtain ⟨r, -, rfl⟩ := State.regRead_eq_next_iff.1 h
    exact .inl (by simp)
  | regWrite offset size v =>
    obtain ⟨r, hr, rfl⟩ := State.regWrite_eq_next_iff.1 h
    cases hb : s.status.busy with
    | true => exact .inl (by rw [State.writeReg_of_busy hb])
    | false =>
      rw [State.writeReg_of_idle hb]
      by_cases hc : r = .cmd
      · subst hc
        obtain ⟨rfl, rfl⟩ := regAccess_eq_cmd hr
        exact .inr (.inr (.inl ⟨v, rfl, rfl⟩))
      · rw [State.writeIdleReg_status, if_neg hc]
        split
        · exact .inr (.inr (.inr (Status.acknowledged_of_idle hb)))
        · exact .inl rfl
  | memRead a =>
    obtain ⟨-, ⟨w, rfl⟩ | ⟨bs, -, w, n, rfl⟩⟩ := hostRead_inv h
    · exact .inl rfl
    · exact .inl (s.forgetTargets_status bs)
  | memWrite a v =>
    obtain ⟨-, bs, -, rfl⟩ := hostWrite_inv h
    exact .inl ((s.setByte a v).forgetTargets_status bs)
  | wait =>
    cases h
    exact .inl rfl
  | reset =>
    cases h
    exact .inr (.inr (.inr rfl))

/-- `MEM_BYTES` is a parameter: no input changes it (00_scope.md R8). -/
theorem take_memLast {s t : State} {e : Input} (h : s.take e = .next t) : t.memLast = s.memLast := by
  cases e with
  | engine =>
    rcases engineTurn_inv h with ⟨-, rfl⟩ | ⟨-, c, rfl⟩ | ⟨-, i, -, rfl⟩
    · rfl
    · rfl
    · exact performOf_memLast i s
  | regRead offset size =>
    obtain ⟨r, -, rfl⟩ := State.regRead_eq_next_iff.1 h
    simp
  | regWrite offset size v =>
    obtain ⟨r, -, rfl⟩ := State.regWrite_eq_next_iff.1 h
    unfold State.writeReg
    split <;> simp
  | memRead a =>
    obtain ⟨-, ⟨w, rfl⟩ | ⟨bs, -, w, n, rfl⟩⟩ := hostRead_inv h
    · rfl
    · exact s.forgetTargets_memLast bs
  | memWrite a v =>
    obtain ⟨-, bs, -, rfl⟩ := hostWrite_inv h
    exact (s.setByte a v).forgetTargets_memLast bs
  | wait =>
    cases h
    rfl
  | reset =>
    cases h
    rfl

/-- Which inputs have a next state: the register accesses and memory accesses with a meaning, and every other input. -/
theorem take_next_iff (s : State) (e : Input) :
    (∃ t, s.take e = .next t) ↔ State.inputLegal { s with inputs := e :: s.inputs } := by
  cases e with
  | engine => exact iff_of_true (engineTurn_next s) trivial
  | regRead offset size =>
    refine Iff.trans ⟨fun ⟨_, h⟩ => ?_, fun ⟨r, hr⟩ => ?_⟩ (regAccess_ok_iff offset size)
    · obtain ⟨r, hr, -⟩ := State.regRead_eq_next_iff.1 h
      exact ⟨r, hr⟩
    · exact ⟨_, State.regRead_eq_next_iff.2 ⟨r, hr, rfl⟩⟩
  | regWrite offset size v =>
    refine Iff.trans ⟨fun ⟨_, h⟩ => ?_, fun ⟨r, hr⟩ => ?_⟩ (regAccess_ok_iff offset size)
    · obtain ⟨r, hr, -⟩ := State.regWrite_eq_next_iff.1 h
      exact ⟨r, hr⟩
    · exact ⟨_, State.regWrite_eq_next_iff.2 ⟨r, hr, rfl⟩⟩
  | memRead a =>
    refine ⟨fun ⟨_, h⟩ => (hostRead_inv h).1, fun (ha : a < s.memBytes) => ?_⟩
    simp only [State.take, State.hostRead, if_neg (Nat.not_le.2 ha)]
    split <;> exact ⟨_, rfl⟩
  | memWrite a v =>
    refine ⟨fun ⟨_, h⟩ => (hostWrite_inv h).1, fun (ha : a < s.memBytes) => ?_⟩
    simp only [State.take, State.hostWrite, if_neg (Nat.not_le.2 ha)]
    exact ⟨_, rfl⟩
  | wait => exact iff_of_true ⟨_, rfl⟩ trivial
  | reset => exact iff_of_true ⟨_, rfl⟩ trivial

/-! Memory stays in canonical form and inside `[0, MEM_BYTES)` (20_memory.md R39). -/

/-- The invariant's part about memory, for a memory of `n` bytes. -/
structure Memory.Fits (m : Memory) (n : Nat) : Prop where
  canonical : m.wf
  inside : ∀ c ∈ m, c.1 < n

theorem State.Inv.fits {s : State} (hs : s.Inv) : s.mem.Fits s.memBytes := ⟨hs.memCanonical, hs.memInside⟩

theorem Memory.Fits.set {m : Memory} {n a : Nat} (hm : m.Fits n) (ha : a < n) (v : Byte) :
    (Memory.set m a v).Fits n where
  canonical := Memory.set_wf hm.canonical a v
  inside c hc := by
    rcases Memory.mem_set hc with rfl | hc
    · exact ha
    · exact hm.inside c hc

theorem Memory.Fits.fill {m : Memory} {n base size : Nat} (hm : m.Fits n) (hb : base + size ≤ n) (f : Nat → Byte) :
    (Memory.fill m base f size).Fits n where
  canonical := Memory.fill_wf hm.canonical base f size
  inside c hc := by
    rcases Memory.mem_fill hc with ⟨-, hlt⟩ | hc
    · omega
    · exact hm.inside c hc

theorem Memory.Fits.forgetTargets {s : State} {n : Nat} (hm : s.mem.Fits n) {bs : List Buffers}
    (hbs : ∀ b ∈ bs, b.target.1 + b.target.2 ≤ n) : (s.forgetTargets bs).mem.Fits n where
  canonical := State.forgetTargets_wf hm.canonical bs
  inside c hc := by
    rcases State.mem_forgetTargets hc with ⟨b, hb, -, hlt⟩ | hc
    · have := hbs b hb
      omega
    · exact hm.inside c hc

/-- The bytes an accepted command writes lie in memory (20_memory.md R49, R50). -/
theorem writes_inside (i : Instr) {s : State} (hv : validate i s = .none) :
    (s.buffersOf i).writes.1 + (s.buffersOf i).writes.2 ≤ s.memBytes := by
  have htarget := target_inside i hv
  obtain ⟨hbase, hsize⟩ := writes_in_target i s
  omega

theorem performOf_fits (i : Instr) {s : State} (hs : s.Inv) (hv : validate i s = .none) :
    (performOf i s).mem.Fits s.memBytes where
  canonical := performOf_wf i hs.memCanonical
  inside c hc := by
    have hin := writes_inside i hv
    rcases mem_performOf i hc with ⟨-, hlt⟩ | hc
    · omega
    · exact hs.memInside c hc

theorem abandon_fits {s : State} (hs : s.Inv) : s.abandon.mem.Fits s.memBytes := by
  rcases s.abandon_mem with h | ⟨i, hr, h⟩
  · rw [h]
    exact hs.fits
  · rw [h]
    exact hs.fits.fill (writes_inside i (State.running_eq_some.1 hr).2.2) _

/-! Every input keeps the invariant. -/

/-- The invariant from its parts, where the parameter is as before and no new command awaits being seen. -/
theorem State.Inv.of_parts {s t : State} (hs : s.Inv) (hlast : t.memLast = s.memLast)
    (hmem : t.mem.Fits s.memBytes) (hstatus : t.status.legal)
    (hdist : t.disturbed = true → t.status.busy = true) (hunseen : t.unseen ⊆ s.unseen) : t.Inv := by
  have hbytes : t.memBytes = s.memBytes := congrArg (·.toNat + 1) hlast
  exact ⟨hmem.canonical, hbytes ▸ hmem.inside, hstatus, hdist, fun b hb => hbytes ▸ hs.unseenInside b (hunseen hb)⟩

theorem State.Inv.withInputs {s : State} (hs : s.Inv) (l : List Input) : State.Inv { s with inputs := l } :=
  hs.of_parts rfl hs.fits hs.statusLegal hs.disturbedBusy (List.Subset.refl _)

theorem State.Inv.raiseError {s : State} (hs : s.Inv) (e : ErrCode) : (s.raiseError e).Inv :=
  hs.of_parts rfl hs.fits (Status.legal_completed e) nofun (List.Subset.refl _)

/-- An accepted command's destination lies in memory, so neither its writes nor its entry among the unseen commands break the
invariant. -/
theorem State.Inv.perform {s : State} (hs : s.Inv) {i : Instr} (hv : validate i s = .none) :
    State.Inv { (performOf i s).complete .none with unseen := s.buffersOf i :: s.unseen } := by
  have hbytes : (performOf i s).memBytes = s.memBytes := congrArg (·.toNat + 1) (performOf_memLast i s)
  have hmem := performOf_fits i hs hv
  refine ⟨hmem.canonical, fun c hc => hbytes ▸ hmem.inside c hc, Status.legal_completed .none, nofun, fun b hb => ?_⟩
  show _ ≤ (performOf i s).memBytes
  rw [hbytes]
  rcases List.mem_cons.1 hb with rfl | hb
  · exact target_inside i hv
  · exact hs.unseenInside b hb

theorem State.Inv.engineTurn {s t : State} (hs : s.Inv) (h : s.engineTurn = .next t) : t.Inv := by
  rcases engineTurn_inv h with ⟨-, rfl⟩ | ⟨-, e, rfl⟩ | ⟨-, i, hv, rfl⟩
  · exact hs
  · exact hs.raiseError e
  · exact hs.perform hv

theorem State.Inv.hostReadReg {s : State} (hs : s.Inv) (r : Reg) : (s.hostReadReg r).Inv := by
  refine hs.of_parts (by simp) (by simpa using hs.fits) (by simpa using hs.statusLegal)
    (by simpa using hs.disturbedBusy) ?_
  rw [State.hostReadReg_unseen]
  split <;> simp

/-- A register write keeps the invariant: it never sets more of `STATUS` than an issue or an acknowledge does. -/
theorem State.Inv.writeReg {s : State} (hs : s.Inv) (r : Reg) (v : Word) : (s.writeReg r v).Inv := by
  cases hb : s.status.busy with
  | true => rwa [State.writeReg_of_busy hb]
  | false =>
    rw [State.writeReg_of_idle hb]
    have hidle : s.disturbed = false := by simpa [hb] using hs.disturbedBusy
    refine hs.of_parts (by simp) (by simpa using hs.fits) ?_ ?_ (by simp)
    · rw [State.writeIdleReg_status]
      split_ifs
      · exact Status.legal_issued
      · exact Status.acknowledged_of_idle hb ▸ Status.legal_idle
      · exact hs.statusLegal
    · simp [State.writeIdleReg_disturbed, hidle]

theorem State.Inv.poll {s : State} (hs : s.Inv) : s.poll.Inv :=
  (hs.hostReadReg .status).withInputs _

theorem State.Inv.applyReset {s : State} (hs : s.Inv) : s.applyReset.Inv :=
  hs.of_parts rfl (abandon_fits hs) Status.legal_idle nofun (List.Subset.refl _)

/-- Forgetting the destinations of unseen commands keeps the invariant, whatever the host has touched to cause it. -/
theorem State.Inv.forgetTargets {s : State} (hs : s.Inv) {bs : List Buffers} (hbs : bs ⊆ s.unseen) :
    (s.forgetTargets bs).Inv :=
  hs.of_parts (by simp) (hs.fits.forgetTargets fun b hb => hs.unseenInside b (hbs hb))
    (by simpa using hs.statusLegal) (by simpa using hs.disturbedBusy) (by simp)

/-- A host access to memory marks a command as disturbed only while one runs. -/
theorem State.Inv.markDisturbed {s t : State} (ht : t.Inv) (hst : t.status = s.status) (hdist : t.disturbed = s.disturbed)
    (p : Buffers → Bool) : State.Inv { t with disturbed := s.disturbed || s.runningBuffers.any p } := by
  refine ht.of_parts rfl ht.fits ht.statusLegal (fun h => ?_) (List.Subset.refl _)
  rcases Bool.or_eq_true_iff.1 h with h | h
  · exact ht.disturbedBusy (hdist ▸ h)
  · exact hst ▸ State.busy_of_runningBuffers h

theorem State.Inv.hostRead {s t : State} (hs : s.Inv) {a : Nat} (h : s.hostRead a = .next t) : t.Inv := by
  obtain ⟨-, ⟨w, rfl⟩ | ⟨bs, hbs, w, n, rfl⟩⟩ := hostRead_inv h
  · exact hs.of_parts rfl hs.fits hs.statusLegal hs.disturbedBusy (List.Subset.refl _)
  · have hm := (hs.forgetTargets hbs).markDisturbed (s.forgetTargets_status bs) (s.forgetTargets_disturbed bs)
      (·.written a)
    exact hm.of_parts rfl hm.fits hm.statusLegal hm.disturbedBusy (List.Subset.refl _)

theorem State.Inv.setByte {s : State} (hs : s.Inv) {a : Nat} (ha : a < s.memBytes) (v : Byte) : (s.setByte a v).Inv :=
  hs.of_parts rfl (hs.fits.set ha v) hs.statusLegal hs.disturbedBusy (List.Subset.refl _)

theorem State.Inv.hostWrite {s t : State} (hs : s.Inv) {a : Nat} {v : Byte} (h : s.hostWrite a v = .next t) : t.Inv := by
  obtain ⟨ha, bs, hbs, rfl⟩ := hostWrite_inv h
  exact ((hs.setByte ha v).forgetTargets hbs).markDisturbed (s := s) ((s.setByte a v).forgetTargets_status bs)
    ((s.setByte a v).forgetTargets_disturbed bs) (·.covers a)

theorem State.Inv.take {s t : State} (hs : s.Inv) {e : Input} (h : s.take e = .next t) : t.Inv := by
  cases e with
  | engine => exact hs.engineTurn h
  | regRead offset size =>
    obtain ⟨r, -, rfl⟩ := State.regRead_eq_next_iff.1 h
    exact hs.hostReadReg r
  | regWrite offset size v =>
    obtain ⟨r, -, rfl⟩ := State.regWrite_eq_next_iff.1 h
    exact hs.writeReg r v
  | memRead a => exact hs.hostRead h
  | memWrite a v => exact hs.hostWrite h
  | wait =>
    cases h
    exact hs.poll
  | reset =>
    cases h
    exact hs.applyReset

/-- Settles O55: the input used up, each kind of input keeps the invariant and the parameter. -/
theorem stepKeepsTheInvariant : Obligations.StepKeepsTheInvariant := by
  intro s t hs h
  rw [step_eq_take] at h
  exact ⟨(hs.withInputs s.inputs.tail).take h, (take_memLast h :)⟩

/-- Settles O54: nothing listed in memory, `STATUS` all 0, no command seen or unseen. -/
theorem resetMeetsTheInvariant : Obligations.ResetMeetsTheInvariant :=
  ⟨List.Pairwise.nil, nofun, Status.legal_idle, nofun, nofun⟩

/-- Settles O43: among all an input can do to `STATUS`, an issue alone raises `BUSY` and a completion alone raises `DONE`. -/
theorem busyAndDoneHaveOneSource : Obligations.BusyAndDoneHaveOneSource := by
  intro s t h
  rw [step_eq_take] at h
  rcases take_status_cases h with hst | ⟨he, hb, c, hst⟩ | ⟨w, he, rfl⟩ | hst
  · rw [hst]
    exact ⟨fun h0 h1 => absurd (h0.symm.trans h1) Bool.false_ne_true,
      fun h0 h1 => absurd (h0.symm.trans h1) Bool.false_ne_true⟩
  · rw [hst]
    exact ⟨nofun, fun _ _ => ⟨hb, rfl, engine_oldest he⟩⟩
  · exact ⟨fun _ _ => ⟨w, s.inputs.tail, listed_oldest he nofun, rfl, rfl⟩, nofun⟩
  · rw [hst]
    exact ⟨nofun, nofun⟩

/-- Settles O46: the step is a `hostReadReg`, and a busy legal `STATUS` is `BUSY` alone. -/
theorem registerReadsHaveNoEffect : Obligations.RegisterReadsHaveNoEffect := by
  intro s r offset rest hs hr hin
  have hreply : (State.hostReadReg { s with inputs := rest } r).reply = some (s.readReg r) :=
    (State.hostReadReg_reply ..).trans (congrArg some (s.readReg_withInputs rest r))
  refine ⟨_, step_regRead hr hin, hreply, by simp, s.sameOperands_hostReadReg rest r, by simp, by simp,
    by simp, by simp, by simp, fun hb hstat => ?_, fun hres => ?_⟩
  · rw [hreply, hstat, State.readReg, hs.statusLegal.eq_issued hb, Status.word_issued]
  · rw [hreply, hres]
    rfl

/-- Settles O49: register accesses by `regAccess_ok_iff`, memory accesses by the bound, and no other input stops. -/
theorem onlyStrayAccessesStop : Obligations.OnlyStrayAccessesStop := by
  intro s
  rw [step_of_inputs]
  unfold State.inputLegal
  cases s.inputs with
  | nil => exact iff_of_true (engineTurn_next s) trivial
  | cons e rest => exact take_next_iff { s with inputs := rest } e

/-- Settles O45: inside the block every aligned write reaches a register, and a busy engine discards it. -/
theorem busyDiscardsRegisterWrites : Obligations.BusyDiscardsRegisterWrites := by
  intro s offset v rest hb ha ho hin
  obtain ⟨r, hr⟩ := (regAccess_ok_iff offset 4).2 ⟨rfl, ha, ho⟩
  obtain ⟨-, hstands⟩ := regAccess_ok_iff_standsAt.1 hr
  rw [step_regWrite hstands hin, State.writeReg_of_busy (s := { s with inputs := rest }) hb]

/-- Settles O48, bit by bit. -/
theorem statusWordHasItsFields : Obligations.StatusWordHasItsFields := by
  intro st
  refine ⟨?_, ?_, ?_, ?_, ?_, ?_⟩
  · rw [Status.getLsbD_word]
    simp
  · rw [Status.getLsbD_word]
    simp
  · rw [Status.getLsbD_word]
    simp
  · refine BitVec.eq_of_getLsbD_eq fun i hi => ?_
    rw [BitVec.getLsbD_extractLsb', Status.getLsbD_word]
    simp [hi, show ¬ 8 + i = 1 by omega, show ¬ 8 + i = 2 by omega]
  · refine BitVec.eq_of_getLsbD_eq fun i hi => ?_
    rw [BitVec.getLsbD_extractLsb', Status.getLsbD_word]
    simp [show ¬ 3 + i = 1 by omega, show ¬ 3 + i = 2 by omega, show ¬ 8 ≤ 3 + i by omega]
  · refine BitVec.eq_of_getLsbD_eq fun i hi => ?_
    rw [BitVec.getLsbD_extractLsb', Status.getLsbD_word, BitVec.getLsbD_of_ge _ (12 + i - 8) (by omega)]
    simp [show ¬ 12 + i = 1 by omega, show ¬ 12 + i = 2 by omega]

/-- Settles O52: every command refuses depth 0 before anything else. -/
theorem afterResetEveryCommandIsRefused : Obligations.AfterResetEveryCommandIsRefused := by
  refine ⟨rfl, fun r hr => ?_, fun i => ?_⟩
  · cases r with
    | id => exact absurd rfl hr
    | _ => rfl
  · have hv : validate i State.reset = .format := by cases i <;> rfl
    rcases exec_cases i State.reset with ⟨-, hx⟩ | ⟨hnone, -⟩
    · rw [hv] at hx
      exact ⟨_, hx, rfl, rfl⟩
    · rw [hv] at hnone
      cases hnone

/-- Settles O47: the step is a `writeIdleReg`, read back at the register written, at the others, and in the frame. -/
theorem registersReadBackWhatTheyStore : Obligations.RegistersReadBackWhatTheyStore := by
  intro s r offset v rest hb hr hin
  have hstep : step s = .next (State.writeIdleReg { s with inputs := rest } v r) := by
    rw [step_regWrite hr hin, State.writeReg_of_idle (s := { s with inputs := rest }) hb]
  refine ⟨_, hstep, State.readReg_writeIdleReg_same _ v, ?_, ?_, ?_, ?_, rfl, rfl, fun q hq hc => ?_,
    by simp, by simp, by simp, by simp, by simp, by simp⟩
  · rintro rfl
    exact Ctrl.word_ofWord v
  · rintro rfl
    exact State.statusWord_writeIdleReg (s := { s with inputs := rest }) hb v
  · rintro rfl
    exact Status.word_issued
  · rintro (rfl | rfl) <;> rfl
  · exact (State.readReg_writeIdleReg_ne _ v hq hc).trans (s.readReg_withInputs rest q)

end Sys2Proof.Machine
end

section
/-! Memory: what a command writes, what a kernel weight reads, and what the host reads back: the statements of
20_memory.md. -/

namespace Sys2Proof.Machine

/-! The bytes a command may change (20_memory.md R49). -/

theorem exec_next (i : Instr) (s : State) : ∃ t, exec i s = .next t := by
  rcases exec_cases i s with ⟨-, hx⟩ | ⟨-, hx⟩ <;> exact ⟨_, hx⟩

/-- The next state a command answers: the error reported and nothing else, or the command performed and completed. -/
theorem exec_inv {i : Instr} {s t : State} (h : exec i s = .next t) :
    (validate i s ≠ .none ∧ t = s.raiseError (validate i s)) ∨
    (validate i s = .none ∧ t = { (performOf i s).complete .none with unseen := s.buffersOf i :: s.unseen }) := by
  rcases exec_cases i s with ⟨hv, hx⟩ | ⟨hv, hx⟩
  · exact .inl ⟨hv, Host.Outcome.next.inj (h.symm.trans hx)⟩
  · exact .inr ⟨hv, Host.Outcome.next.inj (h.symm.trans hx)⟩

/-- Every command but `CONV` has the image for its destination. -/
theorem target_of_ne_conv {i : Instr} (hi : i ≠ .conv) (s : State) : (s.buffersOf i).target = s.imageSpan := by
  cases i with
  | conv => exact absurd rfl hi
  | _ => rfl

/-- Refused or performed, disturbed or not, a command changes no byte outside its destination. -/
theorem exec_sameBytesBut_target {i : Instr} {s t : State} (h : exec i s = .next t) :
    s.SameBytesBut t (s.buffersOf i).target.1 (s.buffersOf i).target.2 := by
  intro a ha
  rcases exec_inv h with ⟨-, rfl⟩ | ⟨-, rfl⟩
  · rfl
  · obtain ⟨hbase, hsize⟩ := writes_in_target i s
    exact performOf_byteAt_outside i s (by omega)

/-- A refused command touches no memory (40_command_cycle.md R77). -/
theorem exec_mem_of_refused {i : Instr} {s t : State} (hv : validate i s ≠ .none) (h : exec i s = .next t) :
    t.mem = s.mem := by
  rcases exec_inv h with ⟨-, rfl⟩ | ⟨hnone, -⟩
  · rfl
  · exact absurd hnone hv

/-- Refused or performed, an undisturbed `EQUAL` keeps a degenerate image (43_equalization.md R114). -/
theorem exec_equal_mem_of_degenerate {s t : State} (hdeg : s.degenerate = true) (hd : s.disturbed = false)
    (h : exec .equal s = .next t) : t.mem = s.mem := by
  rcases exec_inv h with ⟨-, rfl⟩ | ⟨-, rfl⟩
  · rfl
  · have hp : performOf .equal s = s := performEqual_degenerate hd (beq_iff_eq.1 hdeg)
    exact congrArg (·.mem) hp

/-- Settles O15: the frame of the destination buffer, which is the image for every command but `CONV`. -/
theorem commandWritesOnlyItsFootprint : Obligations.CommandWritesOnlyItsFootprint := by
  intro i s
  obtain ⟨t, h⟩ := exec_next i s
  have hbut := exec_sameBytesBut_target h
  refine ⟨t, h, fun hv => exec_mem_of_refused hv h, fun hi => ?_, ?_, ?_⟩
  · rwa [target_of_ne_conv hi] at hbut
  · rintro rfl
    exact hbut
  · rintro rfl hdeg hd
    exact exec_equal_mem_of_degenerate hdeg hd h

/-! Words of memory (20_memory.md R45, R46). -/

/-- The lowest address holds the least significant byte. -/
theorem State.memRead4_toNat (s : State) (a : Nat) : (s.memRead4 a).toNat =
    (s.byteAt a).toNat + 2 ^ 8 * (s.byteAt (a + 1)).toNat + 2 ^ 16 * (s.byteAt (a + 2)).toNat +
      2 ^ 24 * (s.byteAt (a + 3)).toNat := by
  have h0 := (s.byteAt a).isLt
  have h1 := (s.byteAt (a + 1)).isLt
  have h2 := (s.byteAt (a + 2)).isLt
  rw [State.memRead4, BitVec.toNat_append, ← Nat.shiftLeft_add_eq_or_of_lt h0, BitVec.toNat_append,
    ← Nat.shiftLeft_add_eq_or_of_lt h1, BitVec.toNat_append, ← Nat.shiftLeft_add_eq_or_of_lt h2]
  simp only [Nat.shiftLeft_eq]
  omega

theorem sext32_of_lt {w : Word} (h : w.toNat < 2 ^ 31) : sext32 w = w.toNat := if_pos h

theorem sext32_of_ge {w : Word} (h : 2 ^ 31 ≤ w.toNat) : sext32 w = (w.toNat : Int) - 2 ^ 32 :=
  if_neg (Nat.not_lt.2 h)

/-- Settles O31: `u` is the number the word stands for, and the sign extension splits at `2 ^ 31`. -/
theorem weightIsLittleEndianSigned : Obligations.WeightIsLittleEndianSigned := by
  intro s i j
  dsimp only
  rw [← State.memRead4_toNat]
  exact ⟨sext32_of_lt, sext32_of_ge⟩

/-! Plain memory as host accesses see it (20_memory.md R40, R54). -/

/-- A step whose input writes a byte no command's buffers cover: that byte written, the input used up. -/
theorem step_memWrite_of_uncovered {s : State} {a : Nat} {v : Byte} {rest : List Input}
    (hin : s.inputs = .memWrite a v :: rest) (ha : a < s.memBytes)
    (hr : s.runningBuffers.any (·.covers a) = false) (hu : s.unseen.any (·.covers a) = false) :
    step s = .next { s.setByte a v with inputs := rest } := by
  rw [step_of_inputs, hin]
  exact State.hostWrite_of_uncovered (s := { s with inputs := rest }) v ha hr hu

/-- A step whose input reads a byte no command writes: that byte answered, the input used up. -/
theorem step_memRead_of_unwritten {s : State} {a : Nat} {rest : List Input}
    (hin : s.inputs = .memRead a :: rest) (ha : a < s.memBytes)
    (hr : s.runningBuffers.any (·.written a) = false) (hu : s.unseen.any (·.written a) = false) :
    step s = .next { s with inputs := rest, reply := some ((s.byteAt a).setWidth 32) } := by
  rw [step_of_inputs, hin]
  exact State.hostRead_of_unwritten (s := { s with inputs := rest }) ha hr hu

theorem core_run_two {s t u : State} (hs : step s = .next t) (ht : step t = .next u) :
    core.run 2 s = .next u := by
  have hs' : core.step s = .next t := hs
  have ht' : core.step t = .next u := ht
  simp only [Host.Core.run, hs', ht']

theorem State.byteAt_setByte (s : State) (a : Nat) (v : Byte) (b : Nat) :
    (s.setByte a v).byteAt b = if b = a then v else s.byteAt b := by
  split_ifs with h
  · rw [h, State.byteAt, Memory.lookup_set_same, Option.getD_some]
  · exact s.byteAt_setByte_ne v h

/-- A host write outside every command's buffers, then a read of a byte none writes (20_memory.md R40, R54). -/
theorem run_memWrite_memRead {s : State} {a b : Nat} (v : Byte) (ha : a < s.memBytes) (hb : b < s.memBytes)
    (hra : s.runningBuffers.any (·.covers a) = false) (hua : s.unseen.any (·.covers a) = false)
    (hrb : s.runningBuffers.any (·.written b) = false) (hub : s.unseen.any (·.written b) = false) :
    core.run 2 { s with inputs := [.memWrite a v, .memRead b] } =
      .next { s.setByte a v with inputs := [], reply := some (((s.setByte a v).byteAt b).setWidth 32) } := by
  have hrb' : (s.setByte a v).runningBuffers.any (·.written b) = false := by rwa [s.runningBuffers_setByte v hra]
  exact core_run_two
    (step_memWrite_of_uncovered (s := { s with inputs := [.memWrite a v, .memRead b] }) rfl ha hra hua)
    (step_memRead_of_unwritten (s := { s.setByte a v with inputs := [.memRead b] }) rfl hb hrb' hub)

/-- The read-back of an image none of whose bytes a command writes (44_host_codec.md R137). -/
theorem State.readBackImage_of_unwritten {s : State} (img : Image) (hs : s.ib + s.isize ≤ s.memBytes)
    (h : ∀ k < s.isize, s.runningBuffers.any (·.written (s.ib + k)) = false ∧
      s.unseen.any (·.written (s.ib + k)) = false) :
    ∃ r, s.readBackImage img = .next ({ s with reply := r },
      { img with pixels := (List.range s.isize).map fun k => s.byteAt (s.ib + k) }) := by
  obtain ⟨r, hread⟩ := State.readBytes_of_unwritten s.isize { s with reply := some s.imgBase } s.ib hs h
  refine ⟨r, ?_⟩
  rw [State.readBackImage, State.hostTakes_imgBase, followedBy_next]
  show followedBy (State.readBytes s.isize { s with reply := some s.imgBase } s.ib) _ = _
  rw [hread]
  rfl

/-- Settles O57: two plain steps, and the run of plain reads from `IMG_BASE`. -/
theorem hostReadsTheByteLastWritten : Obligations.HostReadsTheByteLastWritten := by
  refine ⟨fun s a b v ha hb hra hua hrb hub => ?_, fun s img hs h => ?_⟩
  · refine ⟨_, run_memWrite_memRead v ha hb hra hua hrb hub, ?_, s.byteAt_setByte a v, rfl⟩
    rw [s.byteAt_setByte a v b]
  · obtain ⟨r, hread⟩ := State.readBackImage_of_unwritten img hs h
    refine ⟨_, _, hread, by simp, fun k hk => ?_, rfl, rfl⟩
    simp [hk]

end Sys2Proof.Machine
end

section
/-! Issue, execution and completion, and the order of host and engine: the statements of 40_command_cycle.md. -/

namespace Sys2Proof.Machine

/-! What every command leaves, refused or performed (40_command_cycle.md R77, R78, R82). -/

theorem State.sameOperands_raiseError (s : State) (e : ErrCode) : s.SameOperands (s.raiseError e) :=
  ⟨⟨rfl, rfl, rfl, rfl, rfl, rfl⟩, rfl, rfl⟩

theorem State.sameOutside_raiseError (s : State) (e : ErrCode) : s.SameOutside (s.raiseError e) :=
  ⟨rfl, rfl, rfl, rfl, rfl⟩

theorem performOf_sameOutside (i : Instr) (s : State) : s.SameOutside (performOf i s) := by
  rw [performOf_frame]
  exact ⟨rfl, rfl, rfl, rfl, rfl⟩

theorem performOf_sameSizes (i : Instr) (s : State) : s.SameSizes (performOf i s) := by
  rw [performOf_frame]
  exact ⟨rfl, rfl, rfl, rfl, rfl, rfl⟩

theorem performOf_imgBase (i : Instr) (s : State) :
    (performOf i s).imgBase = if i = .conv then s.outBase else s.imgBase := by
  rw [performOf_frame]

theorem performOf_outBase (i : Instr) (s : State) :
    (performOf i s).outBase = if i = .conv then s.imgBase else s.outBase := by
  rw [performOf_frame]

/-- No command changes what is not its own: `CTRL`, `CMD`, the parameter and the host's side. -/
theorem exec_sameOutside {i : Instr} {s t : State} (h : exec i s = .next t) : s.SameOutside t := by
  rcases exec_inv h with ⟨-, rfl⟩ | ⟨-, rfl⟩
  · exact s.sameOutside_raiseError _
  · obtain ⟨hctrl, hcmd, hlast, hinputs, hreply⟩ := performOf_sameOutside i s
    exact ⟨hctrl, hcmd, hlast, hinputs, hreply⟩

/-- A command's report is the outcome of `Validate`. -/
theorem exec_status {i : Instr} {s t : State} (h : exec i s = .next t) : t.status = .completed (validate i s) := by
  rcases exec_inv h with ⟨-, rfl⟩ | ⟨hv, rfl⟩
  · rfl
  · rw [hv]
    rfl

/-- Refused or performed, a command keeps every operand register but the two bases. -/
theorem exec_sameSizes {i : Instr} {s t : State} (h : exec i s = .next t) : s.SameSizes t := by
  rcases exec_inv h with ⟨-, rfl⟩ | ⟨-, rfl⟩
  · exact (s.sameOperands_raiseError _).toSameSizes
  · obtain ⟨hw, hh, hd, hkb, hks, hkd⟩ := performOf_sameSizes i s
    exact ⟨hw, hh, hd, hkb, hks, hkd⟩

/-- The two bases after an accepted command: exchanged by `CONV`, kept by the others. -/
theorem exec_bases {i : Instr} {s t : State} (hv : validate i s = .none) (h : exec i s = .next t) :
    t.imgBase = (if i = .conv then s.outBase else s.imgBase) ∧
      t.outBase = if i = .conv then s.imgBase else s.outBase := by
  rcases exec_inv h with ⟨hne, -⟩ | ⟨-, rfl⟩
  · exact absurd hv hne
  · exact ⟨performOf_imgBase i s, performOf_outBase i s⟩

theorem Status.completed_of_ne {e : ErrCode} (h : e ≠ .none) : Status.completed e = ⟨false, true, true, e⟩ := by
  simp [Status.completed, h]

/-- Settles O9: a refused command is `raiseError`, and `Validate` reads registers alone. -/
theorem refusedCommandOnlyReports : Obligations.RefusedCommandOnlyReports := by
  intro i s hv
  refine ⟨?_, fun m => validate_congr i rfl rfl rfl rfl rfl rfl rfl rfl rfl⟩
  rcases exec_cases i s with ⟨-, hx⟩ | ⟨hnone, -⟩
  · exact ⟨_, hx, Status.completed_of_ne hv, s.sameOperands_raiseError _, s.sameOutside_raiseError _, rfl, rfl, rfl⟩
  · exact absurd hnone hv

/-- Settles O11: the report is that of `Validate`, and `CTRL` and `CMD` are kept. -/
theorem everyCommandReportsCompletion : Obligations.EveryCommandReportsCompletion := by
  intro i s
  obtain ⟨t, h⟩ := exec_next i s
  have hst := exec_status h
  have hout := exec_sameOutside h
  refine ⟨t, h, ?_, ?_, fun hv => ?_, fun hv => ?_, hout, ?_⟩
  · rw [hst]
    rfl
  · rw [hst]
    rfl
  · rw [hst, hv]
    exact ⟨rfl, rfl⟩
  · rw [hst, Status.completed_of_ne hv]
    exact ⟨rfl, rfl⟩
  · rw [State.irq, hst, hout.ctrl]
    rfl

/-- Settles O13: the eight operand registers are the six sizes and the two bases. -/
theorem successLeavesOperandsButConvSwaps : Obligations.SuccessLeavesOperandsButConvSwaps := by
  intro i s hv
  obtain ⟨t, h⟩ := exec_next i s
  have hsizes := exec_sameSizes h
  obtain ⟨himg, hout⟩ := exec_bases hv h
  refine ⟨t, h, exec_sameOutside h, fun hi => ?_, fun hi => ?_⟩
  · rw [if_neg hi] at himg hout
    exact ⟨hsizes, himg, hout⟩
  · rw [if_pos hi] at himg hout
    exact ⟨hsizes, himg, hout⟩

/-! Issue (40_command_cycle.md R73). -/

/-- Settles O6: the step writes `CMD`, which issues while idle and is discarded while busy. -/
theorem cmdWriteIssues : Obligations.CmdWriteIssues := by
  intro s w rest hin
  have hstep : step s = .next (State.writeReg { s with inputs := rest } .cmd w) := step_regWrite (.inl rfl) hin
  refine ⟨fun hb => ?_, fun hb => ?_⟩
  · rw [State.writeReg_of_idle (s := { s with inputs := rest }) hb] at hstep
    exact ⟨_, hstep, rfl, rfl, ⟨⟨rfl, rfl, rfl, rfl, rfl, rfl⟩, rfl, rfl⟩, rfl, rfl, rfl, rfl, rfl⟩
  · rwa [State.writeReg_of_busy (s := { s with inputs := rest }) hb] at hstep

/-! Waiting (40_command_cycle.md R79). -/

theorem step_wait {s : State} {rest : List Input} (hin : s.inputs = .wait :: rest) :
    step s = .next (State.poll { s with inputs := rest }) := by
  rw [step_of_inputs, hin]
  rfl

theorem step_engine {s : State} {rest : List Input} (hin : s.inputs = .engine :: rest) :
    step s = State.engineTurn { s with inputs := rest } := by
  rw [step_of_inputs, hin]
  rfl

/-- A poll that finds the engine idle answers `STATUS` and shows every command over. -/
theorem State.poll_of_idle {s : State} (hb : s.status.busy = false) :
    s.poll = { s with reply := some s.status.word, unseen := [] } := by
  simp [State.poll, State.hostReadReg, State.seeStatus, State.readReg, hb]

/-- The turn of a busy engine completes its command, whatever the outcome, and leaves the host's side alone. -/
theorem engineTurn_completes {s : State} (hb : s.status.busy = true) :
    ∃ t, s.engineTurn = .next t ∧ (∃ c, t.status = .completed c) ∧ s.SameOutside t := by
  rcases engineTurn_cases s with ⟨hidle, -⟩ | ⟨-, _, -, h⟩ | ⟨-, i, -, h⟩
  · exact absurd (hidle.symm.trans hb) Bool.false_ne_true
  · exact ⟨_, h, ⟨_, rfl⟩, s.sameOutside_raiseError _⟩
  · obtain ⟨t, hx⟩ := exec_next i s
    exact ⟨t, h.trans hx, ⟨_, exec_status hx⟩, exec_sameOutside hx⟩

theorem Status.word_bit_busy (st : Status) : st.word.getLsbD 0 = st.busy := (statusWordHasItsFields st).1

theorem core_run_succ {s t : State} (n : Nat) (hs : step s = .next t) : core.run (n + 1) s = core.run n t := by
  have hs' : core.step s = .next t := hs
  simp only [Host.Core.run, hs']

/-- Settles O12: a poll while busy, the engine's turn, and a poll while idle. -/
theorem waitSeesTheCommandOver : Obligations.WaitSeesTheCommandOver := by
  intro s rest hin
  refine ⟨fun hb => ?_, fun hb => ?_⟩
  · have hpoll := step_wait hin
    have hturns : (State.poll { s with inputs := rest }).inputs = .engine :: .wait :: rest := by
      rw [State.poll_inputs, if_pos hb]
    obtain ⟨u, hu, ⟨c, hc⟩, hout⟩ :=
      engineTurn_completes (s := { State.poll { s with inputs := rest } with inputs := .wait :: rest }) hb
    have hidle : u.status.busy = false := by
      rw [hc]
      rfl
    have hrun : core.run 3 s = .next (State.poll { u with inputs := rest }) := by
      rw [core_run_succ 2 hpoll]
      exact core_run_two ((step_engine hturns).trans hu) (step_wait hout.inputs)
    rw [State.poll_of_idle (s := { u with inputs := rest }) hidle] at hrun
    exact ⟨_, hrun, rfl, hidle, congrArg Status.done hc, rfl, (Status.word_bit_busy _).trans hidle, rfl⟩
  · have hpoll := step_wait hin
    rw [State.poll_of_idle (s := { s with inputs := rest }) hb] at hpoll
    exact ⟨_, hpoll, rfl, (Status.word_bit_busy _).trans hb, rfl⟩

/-! Commands in sequence (40_command_cycle.md R83, 41_point_filters.md R91). -/

theorem exec_bright {s : State} (imm : Int) (hd : s.depth = 8 ∨ s.depth = 24) (hr : s.ImageReady)
    (hu : s.disturbed = false) :
    ∃ t, exec (.bright imm) s = .next t ∧ InPlaceResult s t s.isize (brightByte imm s) :=
  exec_in_place (validate_in_place nofun hd hr) hu rfl

theorem brightByte_zero (s : State) (k : Nat) : brightByte 0 s k = s.byteAt (s.ib + k) := by
  rw [brightByte, add_zero, clamp_of_mem (s.memRead1_nonneg _) (s.memRead1_le _), toByte_memRead1]

/-- Brightness adds up on a byte the first `BRIGHT` did not clamp. -/
theorem brightByte_add {s t : State} {a b : Int} {k : Nat} (hib : t.ib = s.ib)
    (ht : t.byteAt (s.ib + k) = brightByte a s k) (h0 : 0 ≤ s.memRead1 (s.ib + k) + a)
    (h1 : s.memRead1 (s.ib + k) + a ≤ 255) : brightByte b t k = brightByte (a + b) s k := by
  have hread : t.memRead1 (s.ib + k) = s.memRead1 (s.ib + k) + a := by
    rw [State.memRead1, ht, brightByte, clamp_of_mem h0 h1, toByte_toNat h0 h1]
  rw [brightByte, hib, hread, add_assoc, brightByte]

/-- Settles O21: the second `BRIGHT` finds the image where it was, and `brightByte_add` holds byte by byte. -/
theorem brightnessAddsUpUnlessClamped : Obligations.BrightnessAddsUpUnlessClamped := by
  intro s a b hd hr hu
  obtain ⟨t, hst, ht⟩ := exec_bright a hd hr hu
  obtain ⟨-, -, hdepth, -, -, hsize, hib, -⟩ := ht.operands.names
  obtain ⟨u, htu, hur⟩ := exec_bright b (hdepth ▸ hd) (hr.keep ht.operands ht.outside.memLast) ht.undisturbed
  obtain ⟨v, hsv, hv⟩ := exec_bright (a + b) hd hr hu
  refine ⟨t, u, v, hst, htu, hsv, fun k hk h0 h1 => ?_⟩
  have hbyte : u.byteAt (s.ib + k) = brightByte (a + b) s k := by
    rw [← hib, hur.inside (hsize ▸ hk), brightByte_add hib (ht.inside hk) h0 h1]
  refine ⟨hbyte.trans (hv.inside hk).symm, fun hba => ?_⟩
  rw [hbyte, hba, add_neg_cancel, brightByte_zero]

/-! A host write and the engine's turn in either order (40_command_cycle.md R80). -/

theorem State.writeBuffer_withInputs (s : State) (l : List Input) (base size : Nat) (f : Nat → Byte) :
    State.writeBuffer { s with inputs := l } base size f = { s.writeBuffer base size f with inputs := l } := by
  unfold State.writeBuffer
  split <;> rfl

theorem performOf_withInputs (i : Instr) (s : State) (l : List Input) :
    performOf i { s with inputs := l } = { performOf i s with inputs := l } := by
  cases i with
  | conv => exact congrArg State.swapBases (s.writeBuffer_withInputs l ..)
  | _ => exact s.writeBuffer_withInputs l ..

/-- The engine does not look at what is still listed. -/
theorem exec_withInputs {i : Instr} {s t : State} (h : exec i s = .next t) (l : List Input) :
    exec i { s with inputs := l } = .next { t with inputs := l } := by
  rw [exec_eq_runCommand, runCommand]
  rcases exec_inv h with ⟨hv, rfl⟩ | ⟨hv, rfl⟩
  · exact if_neg hv
  · rw [performOf_withInputs]
    exact if_pos hv

/-- A byte the host writes outside an accepted command's buffers may be written before the command or after it. -/
theorem exec_setByte {i : Instr} {s t : State} {a : Nat} (v : Byte) (hw : s.mem.wf) (hd : s.disturbed = false)
    (hc : validate i s = .none → (s.buffersOf i).covers a = false) (h : exec i s = .next t) :
    exec i (s.setByte a v) = .next (t.setByte a v) := by
  have hvalid : validate i (s.setByte a v) = validate i s := validate_congr i rfl rfl rfl rfl rfl rfl rfl rfl rfl
  rw [exec_eq_runCommand, runCommand, hvalid]
  rcases exec_inv h with ⟨hv, rfl⟩ | ⟨hv, rfl⟩
  · exact if_neg hv
  · have hout := hc hv
    rw [← Bool.not_eq_true, Buffers.covers_iff, not_or, not_exists] at hout
    obtain ⟨htarget, hreads⟩ := hout
    rw [if_pos hv, performOf_setByte i v hw hd hv htarget fun b hb hab => hreads b ⟨hb, hab⟩,
      buffersOf_setByte i v hv htarget]
    rfl

theorem engineTurn_of_idle {s : State} (hb : s.status.busy = false) : s.engineTurn = .next s := by
  simp [State.engineTurn, hb]

theorem engineTurn_of_illegal {s : State} {e : Reject} (hb : s.status.busy = true) (hd : decodeWord s.cmd = .error e) :
    s.engineTurn = .next (s.raiseError .op) := by
  simp [State.engineTurn, State.execute, hb, hd]

theorem engineTurn_of_command {s : State} {i : Instr} (hb : s.status.busy = true) (hd : decodeWord s.cmd = .ok i) :
    s.engineTurn = exec i s := by
  simp [State.engineTurn, State.execute, hb, hd]

theorem engineTurn_withInputs {s t : State} (h : s.engineTurn = .next t) (l : List Input) :
    State.engineTurn { s with inputs := l } = .next { t with inputs := l } := by
  rcases engineTurn_cases s with ⟨hb, h'⟩ | ⟨hb, _, hd, h'⟩ | ⟨hb, i, hd, h'⟩
  · rw [h'] at h; cases h
    exact engineTurn_of_idle hb
  · rw [h'] at h; cases h
    exact engineTurn_of_illegal hb hd
  · exact (engineTurn_of_command (s := { s with inputs := l }) hb hd).trans (exec_withInputs (h'.symm.trans h) l)

/-- The running command is the issued one, so its buffers are those the host keeps off. -/
theorem State.uncovered_of_runningBuffers {s : State} {i : Instr} {a : Nat} (hb : s.status.busy = true)
    (hd : decodeWord s.cmd = .ok i) (hr : s.runningBuffers.any (·.covers a) = false) (hv : validate i s = .none) :
    (s.buffersOf i).covers a = false := by
  rw [State.runningBuffers, State.running_eq_some.2 ⟨hb, hd, hv⟩] at hr
  exact hr

/-- A byte the host writes outside the running command's buffers may be written before the engine's turn or after it. -/
theorem engineTurn_setByte {s t : State} {a : Nat} (v : Byte) (hw : s.mem.wf) (hdist : s.disturbed = false)
    (hr : s.runningBuffers.any (·.covers a) = false) (h : s.engineTurn = .next t) :
    (s.setByte a v).engineTurn = .next (t.setByte a v) := by
  rcases engineTurn_cases s with ⟨hb, h'⟩ | ⟨hb, _, hd, h'⟩ | ⟨hb, i, hd, h'⟩
  · rw [h'] at h; cases h
    exact engineTurn_of_idle hb
  · rw [h'] at h; cases h
    exact engineTurn_of_illegal hb hd
  · exact (engineTurn_of_command (s := s.setByte a v) hb hd).trans
      (exec_setByte v hw hdist (State.uncovered_of_runningBuffers hb hd hr) (h'.symm.trans h))

/-- The engine's turn adds to the commands not yet seen over at most the running one. -/
theorem engineTurn_unseen_uncovered {s t : State} {a : Nat} (hr : s.runningBuffers.any (·.covers a) = false)
    (hu : s.unseen.any (·.covers a) = false) (h : s.engineTurn = .next t) : t.unseen.any (·.covers a) = false := by
  rcases engineTurn_cases s with ⟨-, h'⟩ | ⟨-, _, -, h'⟩ | ⟨hb, i, hd, h'⟩
  · rw [h'] at h; cases h
    exact hu
  · rw [h'] at h; cases h
    exact hu
  · rcases exec_inv (h'.symm.trans h) with ⟨-, rfl⟩ | ⟨hv, rfl⟩
    · exact hu
    · rw [List.any_cons, State.uncovered_of_runningBuffers hb hd hr hv, hu, Bool.or_false]

theorem State.runningBuffers_any_of_idle {s : State} (hb : s.status.busy = false) (p : Buffers → Bool) :
    s.runningBuffers.any p = false := by
  rw [← Bool.not_eq_true]
  exact fun h => absurd (hb.symm.trans (State.busy_of_runningBuffers h)) Bool.false_ne_true

/-- Settles O58: the write keeps off the command's buffers before the turn and after it, and commutes with the turn. -/
theorem hostWriteElsewhereCommutesWithExecute : Obligations.HostWriteElsewhereCommutesWithExecute := by
  intro s a v hs hb hdist ha hr hu
  obtain ⟨t, ht, ⟨c, hc⟩, hout⟩ := engineTurn_completes hb
  have hidle : t.status.busy = false := by
    rw [hc]
    rfl
  have ha' : a < t.memBytes := by rwa [State.memBytes, hout.memLast]
  have hu' := engineTurn_unseen_uncovered hr hu ht
  refine ⟨{ t.setByte a v with inputs := [] }, ?_, ?_⟩
  · exact core_run_two
      (step_memWrite_of_uncovered (s := { s with inputs := [.memWrite a v] }) rfl ha hr hu)
      (engineTurn_withInputs (engineTurn_setByte v hs.memCanonical hdist hr ht) [])
  · exact core_run_two
      ((step_engine (s := { s with inputs := [.engine, .memWrite a v] }) rfl).trans
        (engineTurn_withInputs ht [.memWrite a v]))
      (step_memWrite_of_uncovered (s := { t with inputs := [.memWrite a v] }) rfl ha'
        (State.runningBuffers_any_of_idle (s := { t with inputs := [.memWrite a v] }) hidle _) hu')

end Sys2Proof.Machine
end

section
/-! The point transforms byte by byte, and those that twice is once: the statements of 41_point_filters.md. -/

namespace Sys2Proof.Machine

/-- A channel value given as a natural number is stored as itself. -/
theorem toByte_natCast_toNat {n : Nat} (h : n ≤ 255) : (toByte n).toNat = n :=
  Int.ofNat_inj.1 (toByte_toNat (Int.natCast_nonneg n) (Int.ofNat_le.2 h))

/-! What a point transform answers, and what it answers when it is run again (41_point_filters.md R85). -/

theorem exec_point {i : Instr} {f : State → Nat → Byte} {s : State} (hi : i ≠ .conv) (hp : performOf i = performPoint f)
    (hd : depthSuits i s.depth) (hr : s.ImageReady) (hu : s.disturbed = false) :
    ∃ t, exec i s = .next t ∧ InPlaceResult s t s.isize (f s) :=
  exec_in_place (validate_in_place hi hd hr) hu (congrFun hp s)

/-- All that an in-place command over the whole image leaves, but the bytes of the image. -/
theorem InPlaceResult.frame {s t : State} {f : Nat → Byte} (h : InPlaceResult s t s.isize f) :
    s.SameBytesBut t s.ib s.isize ∧ t.status = ⟨false, true, false, .none⟩ ∧ s.SameOperands t ∧ s.SameOutside t :=
  ⟨h.but le_rfl, h.status, h.operands, h.outside⟩

/-- Two commands in place, the second writing the bytes that the first left: the second changes no byte of memory. -/
theorem InPlaceResult.byteAt_again {s t u : State} {f g : Nat → Byte} (ht : InPlaceResult s t s.isize f)
    (hu : InPlaceResult t u t.isize g) (hfg : ∀ k < s.isize, g k = f k) (a : Nat) : u.byteAt a = t.byteAt a := by
  obtain ⟨-, -, -, -, -, hsize, hib, -⟩ := ht.operands.names
  rw [hu.bytes, hib, hsize]
  split
  case isTrue hin => rw [hfg _ (by omega), ht.bytes, if_pos hin]
  case isFalse => rfl

/-- A point transform that computes the same bytes from its own result is accepted again and changes nothing. -/
theorem exec_point_twice {i : Instr} {f : State → Nat → Byte} {s : State} (hi : i ≠ .conv)
    (hp : performOf i = performPoint f) (hd : depthSuits i s.depth) (hr : s.ImageReady) (hu : s.disturbed = false)
    (hf : ∀ t, InPlaceResult s t s.isize (f s) → ∀ k < s.isize, f t k = f s k) :
    ∃ t u, exec i s = .next t ∧ exec i t = .next u ∧ ∀ a, u.byteAt a = t.byteAt a := by
  obtain ⟨t, hst, ht⟩ := exec_point hi hp hd hr hu
  obtain ⟨-, -, hdepth, -⟩ := ht.operands.names
  obtain ⟨u, htu, hur⟩ := exec_point hi hp (hdepth.symm ▸ hd) (hr.keep ht.operands ht.outside.memLast) ht.undisturbed
  exact ⟨t, u, hst, htu, ht.byteAt_again hur (hf t ht)⟩

/-! `NEG` (41_point_filters.md R86). -/

theorem negByte_toNat (s : State) (k : Nat) : (negByte s k).toNat = 255 - (s.byteAt (s.ib + k)).toNat := by
  have hv := (s.byteAt (s.ib + k)).isLt
  refine Eq.trans ?_ (toByte_natCast_toNat (by omega))
  rw [negByte, State.memRead1, Nat.cast_sub (by omega), Nat.cast_ofNat]

/-- Settles O16: byte `k` of the image is `negByte`. -/
theorem negNegatesTheImage : Obligations.NegNegatesTheImage := by
  intro s hd hr hu
  obtain ⟨t, hst, ht⟩ := exec_point (i := .neg) nofun rfl hd hr hu
  exact ⟨t, hst, fun k hk => by rw [ht.inside hk, negByte_toNat], ht.frame⟩

/-! `GRAY` (41_point_filters.md R87). -/

/-- The three bytes of a pixel get one value. -/
theorem grayByte_congr (s : State) {j k : Nat} (h : j / 3 = k / 3) : grayByte s j = grayByte s k := by
  rw [grayByte, grayByte, h]

theorem grayByte_toNat (s : State) (k : Nat) : (grayByte s k).toNat =
    ((s.byteAt (s.ib + 3 * (k / 3))).toNat + (s.byteAt (s.ib + 3 * (k / 3) + 1)).toNat +
      (s.byteAt (s.ib + 3 * (k / 3) + 2)).toNat) / 3 := by
  have hr := (s.byteAt (s.ib + 3 * (k / 3))).isLt
  have hg := (s.byteAt (s.ib + 3 * (k / 3) + 1)).isLt
  have hb := (s.byteAt (s.ib + 3 * (k / 3) + 2)).isLt
  refine Eq.trans ?_ (toByte_natCast_toNat (by omega))
  simp [grayByte, fdiv, State.memRead1]

/-- The truncated mean of three equal bytes is that byte. -/
theorem grayByte_of_equal (s : State) {k : Nat} {v : Byte}
    (h : ∀ c < 3, s.byteAt (s.ib + 3 * (k / 3) + c) = v) : grayByte s k = v := by
  have h0 : s.byteAt (s.ib + 3 * (k / 3)) = v := h 0 (by decide)
  apply BitVec.eq_of_toNat_eq
  rw [grayByte_toNat, h0, h 1 (by decide), h 2 (by decide)]
  omega

/-- `GRAY` finds the three bytes of every pixel of its own result equal. -/
theorem grayByte_again {s t : State} (hd : s.depth = 24) (ht : InPlaceResult s t s.isize (grayByte s)) {k : Nat}
    (hk : k < s.isize) : grayByte t k = grayByte s k := by
  obtain ⟨-, -, -, -, -, -, hib, -⟩ := ht.operands.names
  rw [State.isize_of_depth24 hd] at hk
  refine grayByte_of_equal t fun c hc => ?_
  have hin : 3 * (k / 3) + c < s.isize := by
    rw [State.isize_of_depth24 hd]
    omega
  rw [hib, Nat.add_assoc, ht.inside hin, grayByte_congr s (show (3 * (k / 3) + c) / 3 = k / 3 by omega)]

/-- Settles O18: byte `3 * p + c` of the image is the `grayByte` of pixel `p`. -/
theorem grayAveragesEveryPixel : Obligations.GrayAveragesEveryPixel := by
  intro s hd hr hu
  obtain ⟨t, hst, ht⟩ := exec_point (i := .gray) nofun rfl hd hr hu
  refine ⟨t, hst, fun p hp c hc => ?_, ht.frame⟩
  have hin : 3 * p + c < s.isize := by
    rw [State.isize_of_depth24 hd]
    omega
  rw [Nat.add_assoc, ht.inside hin, grayByte_toNat, show (3 * p + c) / 3 = p by omega]

/-- Settles O19: the second `GRAY` averages equal bytes. -/
theorem grayTwiceIsGrayOnce : Obligations.GrayTwiceIsGrayOnce := fun _ hd hr hu =>
  exec_point_twice (i := .gray) nofun rfl hd hr hu fun _ ht _ hk => grayByte_again hd ht hk

/-! `BRIGHT` (41_point_filters.md R88). -/

theorem brightByte_toNat (imm : Int) (s : State) (k : Nat) :
    ((brightByte imm s k).toNat : Int) = max 0 (min 255 ((s.byteAt (s.ib + k)).toNat + imm)) := by
  rw [brightByte, toByte_toNat (clamp_nonneg _) (clamp_le _), clamp_eq, State.memRead1]

/-- Settles O20: byte `k` of the image is `brightByte`. -/
theorem brightAddsAndClamps : Obligations.BrightAddsAndClamps := by
  intro s imm hd hr hu
  obtain ⟨t, hst, ht⟩ := exec_bright imm hd hr hu
  exact ⟨t, hst, fun k hk => by rw [ht.inside hk, brightByte_toNat], ht.frame⟩

/-! `THRESH` (41_point_filters.md R89). -/

theorem threshByte_of_le {imm : Int} {s : State} {k : Nat} (h : imm ≤ (s.byteAt (s.ib + k)).toNat) :
    threshByte imm s k = 255#8 := if_pos h

theorem threshByte_of_lt {imm : Int} {s : State} {k : Nat} (h : (s.byteAt (s.ib + k)).toNat < imm) :
    threshByte imm s k = 0#8 := if_neg (not_le.2 h)

/-- A threshold of 1 to 255 keeps 255 and keeps 0. -/
theorem threshByte_again {s t : State} {imm : Int} (h1 : 1 ≤ imm) (h255 : imm ≤ 255)
    (ht : InPlaceResult s t s.isize (threshByte imm s)) {k : Nat} (hk : k < s.isize) :
    threshByte imm t k = threshByte imm s k := by
  obtain ⟨-, -, -, -, -, -, hib, -⟩ := ht.operands.names
  have hold : t.byteAt (t.ib + k) = threshByte imm s k := by rw [hib, ht.inside hk]
  rcases le_or_gt imm (s.byteAt (s.ib + k)).toNat with h | h
  · rw [threshByte_of_le h] at hold ⊢
    exact threshByte_of_le (by rw [hold]; exact h255)
  · rw [threshByte_of_lt h] at hold ⊢
    exact threshByte_of_lt (by rw [hold]; exact Int.lt_of_lt_of_le Int.zero_lt_one h1)

/-- Settles O22: byte `k` of the image is `threshByte`, on either side of the threshold. -/
theorem threshBinarizesTheImage : Obligations.ThreshBinarizesTheImage := by
  intro s imm hd hr hu
  obtain ⟨t, hst, ht⟩ := exec_point (i := .thresh imm) nofun rfl hd hr hu
  refine ⟨t, hst, fun k hk => ?_, ht.frame⟩
  rw [ht.inside hk]
  exact ⟨fun h => by rw [threshByte_of_le h]; rfl, fun h => by rw [threshByte_of_lt h]; rfl⟩

/-- Settles O23: the second `THRESH` finds 255, at least the threshold, or 0, below it. -/
theorem threshTwiceIsThreshOnce : Obligations.ThreshTwiceIsThreshOnce := fun _ imm hd hr hu h1 h255 =>
  exec_point_twice (i := .thresh imm) nofun rfl hd hr hu fun _ ht _ hk => threshByte_again h1 h255 ht hk

end Sys2Proof.Machine
end

section
/-! Convolution: rounding, the output channel by channel, the kernels that copy, and the exchange of the buffers: the
statements of 42_convolution.md. -/

namespace Sys2Proof.Machine

/-! Rounding to nearest (00_scope.md R11). -/

theorem rnd_eq_iff {b : Int} (hb : 0 < b) (a q : Int) :
    rnd a b = q ↔ b * (2 * q - 1) ≤ 2 * a ∧ 2 * a < b * (2 * q + 1) := by
  have hlow : q ≤ rnd a b ↔ b * (2 * q - 1) ≤ 2 * a := by
    rw [rnd, fdiv, Int.le_ediv_iff_mul_le (by omega)]
    constructor <;> intro h <;> linarith
  have hhigh : rnd a b < q + 1 ↔ 2 * a < b * (2 * q + 1) := by
    rw [rnd, fdiv, Int.ediv_lt_iff_lt_mul (by omega)]
    constructor <;> intro h <;> linarith
  rw [← hlow, ← hhigh]
  omega

theorem rnd_monotone {b : Int} (hb : 0 < b) : Monotone (rnd · b) := fun _ _ h => rnd_mono hb h

/-- Rounding is monotone and keeps both bounds, so it commutes with clamping (42_convolution.md R99). -/
theorem clamp_rnd {b : Int} (hb : 0 < b) (a : Int) : clamp (rnd a b) 0 255 = rnd (max 0 (min (255 * b) a)) b := by
  have h0 : rnd 0 b = 0 := by simpa using rnd_mul 0 b hb
  calc clamp (rnd a b) 0 255 = max (rnd 0 b) (min (rnd (255 * b) b) (rnd a b)) := by
        rw [clamp_eq, h0, rnd_mul 255 b hb]
    _ = max (rnd 0 b) (rnd (min (255 * b) a) b) := by rw [(rnd_monotone hb).map_min]
    _ = rnd (max 0 (min (255 * b) a)) b := ((rnd_monotone hb).map_max).symm

/-- Settles O30: the quotient lies between its two bounds, and a monotone function commutes with a clamp. -/
theorem roundingIsNearestTiesUp : Obligations.RoundingIsNearestTiesUp := fun a _ hb =>
  ⟨rnd_eq_iff hb a, clamp_rnd hb a⟩

/-! The value of one output channel (42_convolution.md R95 to R102). -/

/-- The weighted sum over the kernel's rows and columns. -/
theorem State.convSum_eq (s : State) (x y c : Nat) : s.convSum x y c =
    ∑ i ∈ Finset.range s.kn, ∑ j ∈ Finset.range s.kn,
      s.weight i j * s.pixel (x + j - s.koff) (y + i - s.koff) c := by
  simp only [State.convSum, sum_map_range]

theorem State.convOut_of_interior {s : State} {x y : Nat} (c : Nat) (h : s.interior x y = true) :
    s.convOut x y c = clamp (rnd (s.convSum x y c) s.kd) 0 255 :=
  if_pos h

theorem State.convOut_of_border {s : State} {x y : Nat} (c : Nat) (h : ¬ s.interior x y = true) :
    s.convOut x y c = s.pixel x y c :=
  if_neg h

/-- An interior pixel has room for the whole kernel around it. -/
theorem State.kn_le_of_interior {s : State} {x y : Nat} (hodd : s.kn % 2 = 1) (h : s.interior x y = true) :
    s.kn ≤ s.W ∧ s.kn ≤ s.H := by
  rw [interior_iff, State.koff] at h
  omega

/-- The kernel of the identity: `KRN_DIV` at the centre and 0 elsewhere (42_convolution.md R105). -/
def State.IdentityKernel (s : State) : Prop :=
  ∀ i < s.kn, ∀ j < s.kn, s.weight i j = if i = s.koff ∧ j = s.koff then (s.kd : Int) else 0

/-- Under the identity kernel the centre's term is the whole sum. -/
theorem State.convSum_of_identity {s : State} (hodd : s.kn % 2 = 1) (hw : s.IdentityKernel) (x y c : Nat) :
    s.convSum x y c = s.pixel x y c * s.kd := by
  have hcentre : s.koff < s.kn := by
    unfold State.koff
    omega
  have hmem : s.koff ∈ Finset.range s.kn := Finset.mem_range.2 hcentre
  rw [State.convSum_eq, Finset.sum_eq_single_of_mem _ hmem, Finset.sum_eq_single_of_mem _ hmem]
  · rw [hw _ hcentre _ hcentre, if_pos ⟨rfl, rfl⟩, Nat.add_sub_cancel, Nat.add_sub_cancel, mul_comm]
  · intro j hj hne
    rw [hw _ hcentre _ (Finset.mem_range.1 hj), if_neg fun h => hne h.2, zero_mul]
  · intro i hi hne
    refine Finset.sum_eq_zero fun j hj => ?_
    rw [hw _ (Finset.mem_range.1 hi) _ (Finset.mem_range.1 hj), if_neg fun h => hne h.1, zero_mul]

/-- Under the identity kernel every output value is the image's own, inside and on the border. -/
theorem State.convOut_of_identity {s : State} (hk : s.KernelReady) (hw : s.IdentityKernel) (x y c : Nat) :
    s.convOut x y c = s.pixel x y c := by
  by_cases h : s.interior x y = true
  · have hd : (0 : Int) < s.kd := Int.natCast_pos.2 (Nat.pos_of_ne_zero hk.divisor)
    rw [State.convOut_of_interior c h, State.convSum_of_identity hk.odd hw, rnd_mul _ _ hd]
    exact clamp_of_mem (s.memRead1_nonneg _) (s.memRead1_le _)
  · exact State.convOut_of_border c h

/-- A kernel wider or taller than the image leaves no interior pixel (42_convolution.md R104). -/
theorem State.convOut_of_oversized {s : State} (hk : s.KernelReady) (hbig : s.W < s.kn ∨ s.H < s.kn) (x y c : Nat) :
    s.convOut x y c = s.pixel x y c := by
  refine State.convOut_of_border c fun h => ?_
  obtain ⟨hw, hh⟩ := State.kn_le_of_interior hk.odd h
  omega

/-! What `CONV` answers (42_convolution.md R100, R101). -/

theorem exec_conv_of_ready {s : State} (hd : s.depth = 8 ∨ s.depth = 24) (hr : s.ImageReady) (hk : s.KernelReady)
    (hu : s.disturbed = false) : ∃ t, exec .conv s = .next t ∧ ConvResult s t :=
  exec_conv (validate_conv hd hr hk) hu

/-- `CONV` changes no byte outside the output buffer (20_memory.md R49). -/
theorem ConvResult.but {s t : State} (h : ConvResult s t) : s.SameBytesBut t s.ob s.isize := fun a ha => by
  rw [h.bytes, if_neg ha]

/-- Where every output value is the image's own, the output buffer is a copy of the image. -/
theorem ConvResult.copies {s t : State} (h : ConvResult s t) (hout : ∀ x y c, s.convOut x y c = s.pixel x y c) :
    ∀ k < s.isize, t.byteAt (s.ob + k) = s.byteAt (s.ib + k) := by
  intro k hk
  obtain ⟨x, y, c, hx, -, hc, rfl⟩ := exists_chan s hk
  rw [h.bytes, if_pos ⟨by omega, by omega⟩, Nat.add_sub_cancel_left, convByte_at s hx hc, hout, State.pixel,
    toByte_memRead1, State.chanAddr, Nat.add_assoc]

/-- Settles O26: each channel of the output buffer is `convOut`, inside or on the border. -/
theorem convComputesTheOutputBuffer : Obligations.ConvComputesTheOutputBuffer := by
  intro s hd hr hk hu
  obtain ⟨t, hst, ht⟩ := exec_conv_of_ready hd hr hk hu
  refine ⟨t, hst, fun x hx y hy c hc => ?_, ht.but, ht.imgBase, ht.outBase, ht.status, ht.sizes, ht.outside⟩
  dsimp only
  rw [ht.chan hx hy hc]
  refine ⟨fun h => ?_, fun h => State.convOut_of_border c (mt (interior_iff s x y).1 h)⟩
  rw [State.convOut_of_interior c ((interior_iff s x y).2 h), clamp_eq, State.convSum_eq]
  rfl

/-- Settles O27: under the identity kernel every output value is the image's own. -/
theorem identityKernelCopiesTheImage : Obligations.IdentityKernelCopiesTheImage := by
  intro s hd hr hk hu hw
  obtain ⟨t, hst, ht⟩ := exec_conv_of_ready hd hr hk hu
  exact ⟨t, hst, ht.copies (State.convOut_of_identity hk hw)⟩

/-- Settles O28: with no interior pixel every output value is the image's own. -/
theorem oversizedKernelCopiesTheImage : Obligations.OversizedKernelCopiesTheImage := by
  intro s hd hr hk hu hbig
  obtain ⟨t, hst, ht⟩ := exec_conv_of_ready hd hr hk hu
  exact ⟨t, hst, ht.copies (State.convOut_of_oversized hk hbig), ht.imgBase, ht.outBase⟩

/-! The exchange of the buffers (42_convolution.md R101). -/

/-- After `CONV` the operand registers are the old ones with the bases exchanged. -/
theorem ConvResult.operands {s t : State} (h : ConvResult s t) : s.swapBases.SameOperands t := by
  obtain ⟨hw, hh, hd, hkb, hks, hkd⟩ := h.sizes
  exact ⟨⟨hw, hh, hd, hkb, hks, hkd⟩, h.imgBase, h.outBase⟩

/-- With the kernel apart from the image as well, `CONV` is accepted with the bases exchanged. -/
theorem validate_conv_swapBases {s : State} (hd : s.depth = 8 ∨ s.depth = 24) (hr : s.ImageReady) (hk : s.KernelReady)
    (hapart : s.ib + s.isize ≤ s.kb ∨ s.kb + s.kbytes ≤ s.ib) : validate .conv s.swapBases = .none :=
  validate_conv hd ⟨hr.width, hr.height, hk.outInside⟩
    ⟨hk.odd, hk.divisor, hk.aligned, hr.inside, hk.kernelInside, hk.outApartImage.symm, hapart⟩

/-- `Validate` after `CONV` sees nothing but the exchange. -/
theorem ConvResult.validate_eq {s t : State} (h : ConvResult s t) (i : Instr) : validate i t = validate i s.swapBases := by
  obtain ⟨⟨hw, hh, hd, hkb, hks, hkd⟩, himg, hout⟩ := h.operands
  exact validate_congr i himg hw hh hd hout hkb hks hkd h.outside.memLast

/-- A second `CONV` writes nothing but the image of the first. -/
theorem ConvResult.but_again {s t u : State} (ht : ConvResult s t) (hu : ConvResult t u) :
    t.SameBytesBut u s.ib s.isize := by
  obtain ⟨-, -, -, -, -, hsize, -, hob, -⟩ := ht.operands.names
  have hbut := hu.but
  rwa [hob, hsize] at hbut

/-- Settles O29: the first writes the output buffer alone, the second, accepted with the bases exchanged, the image alone. -/
theorem twoConvolutionsPingPong : Obligations.TwoConvolutionsPingPong := by
  intro s hd hr hk hdist hapart
  obtain ⟨t, hst, ht⟩ := exec_conv_of_ready hd hr hk hdist
  obtain ⟨u, htu, hu⟩ := exec_conv ((ht.validate_eq .conv).trans (validate_conv_swapBases hd hr hk hapart)) ht.undisturbed
  have hfirst := ht.but
  have hsecond := ht.but_again hu
  have himage := hk.outApartImage
  have hkernel := hk.outApartKernel
  refine ⟨t, u, hst, htu, fun k hlt => hfirst _ (by omega), fun k hlt => hsecond _ (by omega), fun k hlt => ?_,
    hu.imgBase.trans ht.outBase, hu.outBase.trans ht.imgBase, hu.status⟩
  exact (hsecond _ (by omega)).trans (hfirst _ (by omega))

end Sys2Proof.Machine
end

section
/-! Equalisation: luminance, histogram, cumulative distribution and table in counts of pixels, and what `EQUAL` makes of an
image: the statements of 43_equalization.md. -/

namespace Sys2Proof.Machine

/-! The luminance of a pixel (43_equalization.md R109). -/

theorem State.lumAt_of_depth8 {s : State} (h : s.depth = 8) (p : Nat) : s.lumAt p = s.memRead1 (s.ib + p) := if_pos h

theorem State.lumAt_of_depth24 {s : State} (h : s.depth = 24) (p : Nat) : s.lumAt p =
    lum (s.memRead1 (s.ib + 3 * p)) (s.memRead1 (s.ib + 3 * p + 1)) (s.memRead1 (s.ib + 3 * p + 2)) :=
  if_neg (by omega)

/-- The weights add up to 1000. -/
theorem lum_gray (v : Int) : lum v v v = v := by
  unfold lum fdiv
  omega

/-- Settles O32: by depth, and by the range of a byte. -/
theorem luminanceIsTruncatedWeightedSum : Obligations.LuminanceIsTruncatedWeightedSum := by
  refine ⟨fun s p => ⟨fun h => State.lumAt_of_depth8 h p, fun h => ?_, lumAt_nonneg s p, lumAt_le s p⟩, lum_gray⟩
  rw [State.lumAt_of_depth24 h]
  push_cast
  rfl

/-! Counts of luminances (43_equalization.md R110, R111). -/

/-- The buckets up to a level add up to the count up to that level. -/
theorem sum_counts (ls : List Nat) (n : Nat) : ((List.range (n + 1)).map fun l => ls.count l).sum = upTo ls n := by
  induction n with
  | zero => simp [upTo_zero]
  | succ n ih =>
    rw [List.range_succ, List.map_append, List.sum_append, ih, upTo_succ, List.map_singleton, List.sum_singleton]

theorem upTo_lums_255 (s : State) : upTo s.lums 255 = s.npix := by
  rw [upTo_eq_length fun x hx => Nat.le_of_lt_succ (lums_lt hx), lums_length]

/-- Settles O33: each bucket is a count, and their sum is the count up to 255. -/
theorem histogramCountsPixels : Obligations.HistogramCountsPixels := by
  intro s
  refine ⟨by simp [histogram], fun l hl => ?_, (sum_counts s.lums 255).trans (upTo_lums_255 s)⟩
  simp [histogram, countAt_eq, hl]

/-- Settles O34: the entries are the counts up to each level. -/
theorem cdfCountsPixelsUpTo : Obligations.CdfCountsPixelsUpTo := by
  intro s
  refine ⟨by simp [cdf_eq_map], fun i hi => ?_, ?_, fun i _ => ?_, fun i j h => countUpTo_mono s h, ?_⟩
  · rw [cdf_getElem? _ hi, countUpTo_eq]
  · exact (countUpTo_eq s 0).trans ((upTo_zero _).trans (countAt_eq s 0).symm)
  · have hsucc := upTo_succ s.lums i
    rwa [← countUpTo_eq, ← countUpTo_eq, ← countAt_eq, Nat.cast_succ] at hsucc
  · exact (countUpTo_eq s 255).trans (upTo_lums_255 s)

/-! The smallest and the largest luminance (43_equalization.md R112). -/

/-- Everything is counted exactly when nothing is brighter. -/
theorem countUpTo_eq_npix_iff (s : State) (l : Int) : s.countUpTo l = s.npix ↔ ∀ p < s.npix, s.lumAt p ≤ l := by
  rw [State.countUpTo, ← List.countP_eq_length_filter]
  simpa using List.countP_eq_length (p := fun p => decide (s.lumAt p ≤ l)) (l := List.range s.npix)

/-- Nothing is counted below the smallest luminance. -/
theorem State.LowestLum.countUpTo_of_lt {s : State} {m l : Int} (h : s.LowestLum m) (hl : l < m) : s.countUpTo l = 0 := by
  rw [State.countUpTo, List.length_eq_zero_iff, List.filter_eq_nil_iff]
  intro p hp
  have := h.2 p (List.mem_range.1 hp)
  simp only [decide_eq_true_eq]
  omega

/-- Up to the smallest luminance stand the pixels that have it. -/
theorem State.LowestLum.countUpTo_eq_countAt {s : State} {m : Int} (h : s.LowestLum m) : s.countUpTo m = s.countAt m := by
  rw [State.countUpTo, State.countAt]
  refine congrArg _ (List.filter_congr fun p hp => ?_)
  have := h.2 p (List.mem_range.1 hp)
  rw [decide_eq_decide]
  omega

theorem State.LowestLum.countAt_pos {s : State} {m : Int} (h : s.LowestLum m) : 0 < s.countAt m := by
  obtain ⟨p, hp, hpm⟩ := h.1
  rw [State.countAt, List.length_pos_iff_exists_mem]
  exact ⟨p, List.mem_filter.2 ⟨List.mem_range.2 hp, decide_eq_true hpm⟩⟩

/-- `cdf_min` counts the pixels up to the smallest luminance, given as an integer. -/
theorem State.LowestLum.cdfMin_eq {s : State} {m : Int} (h : s.LowestLum m) : cdfMin s.lums = s.countUpTo m := by
  obtain ⟨n, rfl, hn⟩ := h.toNat
  exact cdfMin_lums hn

/-- Where `cdf_min` is not `NPIX` it is below it, so the table's divisor is positive. -/
theorem cdfMin_lt_npix {s : State} (hs : 0 < s.npix) (hne : s.npix ≠ cdfMin s.lums) : cdfMin s.lums < s.npix :=
  lt_of_le_of_ne (cdfMin_le hs) hne.symm

/-- Settles O35: the counts below, at and up to the smallest luminance. -/
theorem cdfMinCountsTheDarkest : Obligations.CdfMinCountsTheDarkest := by
  intro s hs
  obtain ⟨m, hm, hlow⟩ := exists_lowestLum hs
  have hmin : cdfMin s.lums = s.countAt m := hlow.cdfMin_eq.trans hlow.countUpTo_eq_countAt
  refine ⟨m, hm, hlow, fun i hi => ?_, hmin, hlow.countUpTo_eq_countAt, hmin ▸ hlow.countAt_pos, cdfMin_le hs⟩
  rw [cdf_getElem? _ (hi.trans hm), ← countUpTo_eq, hlow.countUpTo_of_lt (Int.ofNat_lt.2 hi)]

/-! The remapping table (43_equalization.md R113). -/

theorem tableEntry_of_le {n cmin c : Nat} (h : c ≤ cmin) : tableEntry n cmin c = 0 := if_pos (by omega)

/-- The whole count is sent to the top of the range. -/
theorem tableEntry_full {n cmin : Nat} (h : cmin < n) : tableEntry n cmin n = 255 := by
  refine Eq.trans (if_neg (by omega)) ?_
  rw [mul_comm]
  exact rnd_mul 255 _ (by omega)

theorem tableEntry_quotient (n cmin c : Nat) : tableEntry n cmin c =
    if (c : Int) - cmin ≤ 0 then 0
    else (2 * (((c : Int) - cmin) * 255) + ((n : Int) - cmin)) / (2 * ((n : Int) - cmin)) := by
  by_cases h : (c : Int) - cmin ≤ 0
  · rw [if_pos h, tableEntry_of_le (by omega)]
  · rw [if_neg h]
    exact if_neg (by omega)

/-- The table's entry for a level that fits the table. -/
theorem equalizedAt_level (s : State) {i : Nat} (hi : i < 256) :
    equalizedAt s.lums i = tableEntry s.npix (cdfMin s.lums) (s.countUpTo i) := by
  rw [equalizedAt_eq s.lums i hi, lums_length, countUpTo_eq, Int.toNat_natCast]

/-- Settles O36: each entry is a `tableEntry` of a count, and counts rise from `cdf_min` to `NPIX`. -/
theorem tableSpreadsTheLuminances : Obligations.TableSpreadsTheLuminances := by
  intro s hs hne
  have hmin : cdfMin s.lums < s.npix := cdfMin_lt_npix hs hne.symm
  refine ⟨by simp [equalized, cdf_eq_map], fun i hi => ?_, fun i hi => ?_, fun i j hij hj => ?_,
    fun m hlow i hi => ?_, fun m hhigh i hi hmi => ?_⟩
  · rw [equalizedAt_level s hi, tableEntry_quotient]
  · rw [equalizedAt_level s hi]
    exact tableEntry_mem (countUpTo_le ..) hmin
  · rw [equalizedAt_level s hj, equalizedAt_level s (hij.trans_lt hj)]
    exact tableEntry_mono (countUpTo_mono s (Int.ofNat_le.2 hij)) hmin
  · rw [equalizedAt_level s (hi.trans_lt (lums_lt hlow.mem.1)), hlow.cdfMin_eq]
    exact tableEntry_of_le (countUpTo_mono s (Int.ofNat_le.2 hi))
  · have hall : s.countUpTo i = s.npix :=
      (countUpTo_eq_npix_iff s i).2 fun p hp => (hhigh.2 p hp).trans (Int.ofNat_le.2 hmi)
    rw [equalizedAt_level s hi, hall, tableEntry_full hmin]

/-! What `EQUAL` answers (43_equalization.md R114, R115, R118). -/

/-- `EQUAL` on a degenerate image succeeds and keeps memory. -/
theorem exec_equal_degenerate {s : State} (hs : s.depth = 8 ∨ s.depth = 24) (hr : s.ImageReady)
    (hd : s.disturbed = false) (hdeg : s.npix = cdfMin s.lums) :
    ∃ t, exec .equal s = .next t ∧ InPlaceResult s t s.equalSize (equalByte s) ∧ t.mem = s.mem := by
  obtain ⟨t, hst, ht⟩ := exec_in_place (validate_in_place (i := .equal) nofun hs hr) hd rfl
  exact ⟨t, hst, ht, exec_equal_mem_of_degenerate (beq_iff_eq.2 hdeg) hd hst⟩

/-- The image is degenerate exactly when no luminance is above the smallest. -/
theorem npix_eq_cdfMin_iff {s : State} (hs : 0 < s.npix) :
    s.npix = cdfMin s.lums ↔ ∀ p < s.npix, ∀ q < s.npix, s.lumAt p = s.lumAt q := by
  obtain ⟨m, -, hlow⟩ := exists_lowestLum hs
  rw [hlow.cdfMin_eq, eq_comm, countUpTo_eq_npix_iff]
  obtain ⟨⟨r, hr, hrm⟩, hmin⟩ := hlow
  constructor
  · intro hle p hp q hq
    rw [le_antisymm (hle p hp) (hmin p hp), le_antisymm (hle q hq) (hmin q hq)]
  · intro heq p hp
    rw [heq p hp r hr, hrm]

/-- Settles O37: the smallest luminance is everyone's, and nothing is written. -/
theorem equalLeavesDegenerateImages : Obligations.EqualLeavesDegenerateImages := by
  intro s hs hr
  refine ⟨npix_eq_cdfMin_iff hr.npix_pos, fun hdeg hd => ?_⟩
  obtain ⟨t, hst, ht, hmem⟩ := exec_equal_degenerate hs hr hd hdeg
  exact ⟨t, hst, hmem, ht.status, ht.operands, ht.outside⟩

/-- An image that is not all at its smallest luminance `m` is remapped from the count up to `m`. -/
theorem State.LowestLum.cdfMin_lt {s : State} {m : Int} (h : s.LowestLum m) (hne : s.countUpTo m ≠ s.npix) :
    cdfMin s.lums < s.npix := by
  rw [h.cdfMin_eq]
  exact lt_of_le_of_ne (countUpTo_le s m) hne

/-- The table's entry for a pixel, as the rounded quotient of counts of pixels. -/
theorem State.LowestLum.equalizedAt_quotient {s : State} {m : Int} (h : s.LowestLum m) (hne : s.countUpTo m ≠ s.npix)
    (p : Nat) : equalizedAt s.lums (s.lumAt p) =
      ((2 * ((s.countUpTo (s.lumAt p) - s.countUpTo m) * 255) + (s.npix - s.countUpTo m)) /
        (2 * (s.npix - s.countUpTo m)) : Nat) := by
  rw [equalizedAt_lumAt, tableEntry_eq _ (h.cdfMin_lt hne), h.cdfMin_eq]

/-- Every entry of the table for a pixel is a channel value. -/
theorem equalizedAt_lumAt_mem {s : State} (hmin : cdfMin s.lums < s.npix) (p : Nat) :
    0 ≤ equalizedAt s.lums (s.lumAt p) ∧ equalizedAt s.lums (s.lumAt p) ≤ 255 := by
  rw [equalizedAt_lumAt]
  exact tableEntry_mem (countUpTo_le ..) hmin

/-! Depth 8 (43_equalization.md R115). -/

theorem equalByte_of_depth8 {s : State} (hd : s.depth = 8) (k : Nat) :
    equalByte s k = toByte (equalizedAt s.lums (s.lumAt k)) := by
  rw [equalByte, if_pos hd, State.lumAt_of_depth8 hd]

theorem equalByte_toNat_of_depth8 {s : State} (hd : s.depth = 8) (hmin : cdfMin s.lums < s.npix) (k : Nat) :
    ((equalByte s k).toNat : Int) = equalizedAt s.lums (s.lumAt k) := by
  obtain ⟨h0, h255⟩ := equalizedAt_lumAt_mem hmin k
  rw [equalByte_of_depth8 hd, toByte_toNat h0 h255]

/-- Settles O38: byte `k` of the image is the table's entry for pixel `k`. -/
theorem equalRemapsEightBitPixels : Obligations.EqualRemapsEightBitPixels := by
  intro s m hd hr hu hlow hne
  have hmin := hlow.cdfMin_lt hne
  obtain ⟨t, hst, ht⟩ := exec_equal (.inl hd) hr hu hmin.ne'
  refine ⟨t, hst, fun k hk => ?_, ht.frame⟩
  rw [ht.inside hk]
  have hbyte := equalByte_toNat_of_depth8 hd hmin k
  rw [hlow.equalizedAt_quotient hne, State.lumAt_of_depth8 hd] at hbyte
  exact Int.ofNat_inj.1 hbyte

/-! Depth 24 (43_equalization.md R116, R117). -/

theorem rebuild_mem (y2 un vn : Int) (c : Nat) : 0 ≤ rebuild y2 un vn c ∧ rebuild y2 un vn c ≤ 255 :=
  ⟨clamp_nonneg _, clamp_le _⟩

/-- Byte `3 * p + c` of the image is channel `c` of pixel `p`. -/
theorem equalByte_of_depth24 {s : State} (hd : s.depth = 24) (p : Nat) {c : Nat} (hc : c < 3) :
    equalByte s (3 * p + c) = toByte (s.equalColour p c) := by
  rw [equalByte, if_neg (by omega), show (3 * p + c) / 3 = p by omega, show (3 * p + c) % 3 = c by omega]

/-- A channel of a pixel after `EQUAL`. -/
theorem equalByte_toNat_of_depth24 {s t : State} (hd : s.depth = 24) (ht : InPlaceResult s t s.isize (equalByte s))
    {p c : Nat} (hp : p < s.npix) (hc : c < 3) : ((t.byteAt (s.ib + 3 * p + c)).toNat : Int) = s.equalColour p c := by
  have hin : 3 * p + c < s.isize := by
    rw [State.isize_of_depth24 hd]
    omega
  rw [Nat.add_assoc, ht.inside hin, equalByte_of_depth24 hd p hc, State.equalColour,
    toByte_toNat (rebuild_mem ..).1 (rebuild_mem ..).2]

/-- The new colour of a pixel, from the table's entry for its luminance. -/
theorem State.equalColour_of_depth24 {s : State} (hd : s.depth = 24) (p c : Nat) : s.equalColour p c =
    rebuild (equalizedAt s.lums (s.lumAt p))
      (chromaU (s.memRead1 (s.ib + 3 * p)) (s.memRead1 (s.ib + 3 * p + 1)) (s.memRead1 (s.ib + 3 * p + 2)))
      (chromaV (s.memRead1 (s.ib + 3 * p)) (s.memRead1 (s.ib + 3 * p + 1)) (s.memRead1 (s.ib + 3 * p + 2))) c := by
  rw [State.lumAt_of_depth24 hd]
  rfl

/-- The numerator over `E` that a channel is rounded from. -/
def rebuildNumerator (y2 un vn : Int) : Nat → Int
  | 0 => y2 * 10 ^ 10 + 113983 * vn
  | 1 => y2 * 10 ^ 10 - 39465 * un - 58060 * vn
  | _ => y2 * 10 ^ 10 + 203211 * un

theorem rebuild_eq (y2 un vn : Int) (c : Nat) :
    rebuild y2 un vn c = clamp (rnd (rebuildNumerator y2 un vn c) (10 ^ 10)) 0 255 := by
  match c with
  | 0 => rfl
  | 1 => rfl
  | _ + 2 => rfl

/-- Settles O39: each channel is a `rebuild` from the table's entry for the pixel. -/
theorem equalRebuildsColourPixels : Obligations.EqualRebuildsColourPixels := by
  intro s m hd hr hu hlow hne
  obtain ⟨t, hst, ht⟩ := exec_equal (.inr hd) hr hu (hlow.cdfMin_lt hne).ne'
  refine ⟨t, hst, fun p hp => ?_, ht.frame⟩
  have hchannel (c : Nat) (hc : c < 3) :=
    (equalByte_toNat_of_depth24 hd ht hp hc).trans (State.equalColour_of_depth24 hd p c)
  simp only [rebuild_eq, clamp_eq, hlow.equalizedAt_quotient hne] at hchannel
  exact ⟨hchannel 0 (by decide), hchannel 1 (by decide), hchannel 2 (by decide)⟩

/-! Gray pixels of a colour image (43_equalization.md R119). -/

theorem chromaU_gray (v : Int) : chromaU v v v = v := by
  unfold chromaU
  omega

theorem chromaV_gray (v : Int) : chromaV v v v = 0 := by
  unfold chromaV
  omega

/-- A gray pixel's chroma is less than half of `E` in every channel, so it does not move the new luminance. -/
theorem rebuild_gray {y2 v : Int} (hy : 0 ≤ y2 ∧ y2 ≤ 255) (hv : 0 ≤ v ∧ v ≤ 255) (c : Nat) :
    rebuild y2 (chromaU v v v) (chromaV v v v) c = y2 := by
  have hnear : rnd (rebuildNumerator y2 v 0 c) (10 ^ 10) = y2 := by
    rw [rnd_eq_iff (by decide)]
    unfold rebuildNumerator
    split <;> omega
  rw [rebuild_eq, chromaU_gray, chromaV_gray, hnear, clamp_of_mem hy.1 hy.2]

/-- Settles O40: the luminance of a gray pixel is its value, and `rebuild_gray` gives the new one in each channel. -/
theorem equalKeepsGrayPixelsGray : Obligations.EqualKeepsGrayPixelsGray := by
  intro s p v hd hr hu hne hp hgray
  obtain ⟨t, hst, ht⟩ := exec_equal (.inr hd) hr hu hne
  have hread (c : Nat) (hc : c < 3) : s.memRead1 (s.ib + 3 * p + c) = v.toNat := by
    rw [State.memRead1, hgray c hc]
  have hr0 : s.memRead1 (s.ib + 3 * p) = v.toNat := hread 0 (by decide)
  have hr1 := hread 1 (by decide)
  have hr2 := hread 2 (by decide)
  have hlum : s.lumAt p = v.toNat := by rw [State.lumAt_of_depth24 hd, hr0, hr1, hr2, lum_gray]
  have hy := equalizedAt_lumAt_mem (cdfMin_lt_npix hr.npix_pos hne) p
  have hv : (0 : Int) ≤ v.toNat ∧ (v.toNat : Int) ≤ 255 := hr0 ▸ ⟨s.memRead1_nonneg _, s.memRead1_le _⟩
  refine ⟨t, hst, fun c hc => ?_⟩
  rw [equalByte_toNat_of_depth24 hd ht hp hc, State.equalColour_of_depth24 hd, hr0, hr1, hr2, rebuild_gray hy hv, hlum]

/-! A second `EQUAL` (43_equalization.md R120). -/

/-- Two images of one size whose pixels stand in the same order of luminance. -/
structure State.SameLumOrder (s t : State) : Prop where
  npix : t.npix = s.npix
  le_iff : ∀ p < s.npix, ∀ q < s.npix, t.lumAt p ≤ t.lumAt q ↔ s.lumAt p ≤ s.lumAt q

/-- The count up to a pixel depends on the order alone. -/
theorem State.SameLumOrder.countUpTo_eq {s t : State} (h : s.SameLumOrder t) {q : Nat} (hq : q < s.npix) :
    t.countUpTo (t.lumAt q) = s.countUpTo (s.lumAt q) := by
  rw [State.countUpTo, State.countUpTo, h.npix]
  refine congrArg _ (List.filter_congr fun p hp => ?_)
  rw [decide_eq_decide]
  exact h.le_iff p (List.mem_range.1 hp) q hq

/-- The darkest pixels are the same, so they are as many. -/
theorem State.SameLumOrder.cdfMin_eq {s t : State} (h : s.SameLumOrder t) (hs : 0 < s.npix) :
    cdfMin t.lums = cdfMin s.lums := by
  obtain ⟨m, -, ⟨p, hp, hpm⟩, hmin⟩ := exists_lowestLum hs
  have hlow : s.LowestLum (s.lumAt p) := ⟨⟨p, hp, rfl⟩, fun q hq => hpm ▸ hmin q hq⟩
  have hlow' : t.LowestLum (t.lumAt p) :=
    ⟨⟨p, h.npix ▸ hp, rfl⟩, fun q hq => (h.le_iff p hp q (h.npix ▸ hq)).2 (hlow.2 q (h.npix ▸ hq))⟩
  rw [hlow.cdfMin_eq, hlow'.cdfMin_eq, h.countUpTo_eq hp]

/-- The table gives a pixel the same entry in both images. -/
theorem State.SameLumOrder.entry_eq {s t : State} (h : s.SameLumOrder t) {p : Nat} (hp : p < s.npix) :
    equalizedAt t.lums (t.lumAt p) = equalizedAt s.lums (s.lumAt p) := by
  rw [equalizedAt_lumAt, equalizedAt_lumAt, h.npix,
    h.cdfMin_eq (Nat.zero_lt_of_lt hp), h.countUpTo_eq hp]

/-- The table sends no two luminances present to one value. -/
def State.TableInjective (s : State) : Prop :=
  ∀ p < s.npix, ∀ q < s.npix, equalizedAt s.lums (s.lumAt p) = equalizedAt s.lums (s.lumAt q) → s.lumAt p = s.lumAt q

theorem equalizedAt_lumAt_mono {s : State} (hmin : cdfMin s.lums < s.npix) {p q : Nat} (h : s.lumAt p ≤ s.lumAt q) :
    equalizedAt s.lums (s.lumAt p) ≤ equalizedAt s.lums (s.lumAt q) := by
  rw [equalizedAt_lumAt, equalizedAt_lumAt]
  exact tableEntry_mono (countUpTo_mono s h) hmin

/-- The table never falls, so where it is injective it keeps the order of the luminances present. -/
theorem State.TableInjective.le_iff {s : State} (hinj : s.TableInjective) (hmin : cdfMin s.lums < s.npix) {p q : Nat}
    (hp : p < s.npix) (hq : q < s.npix) :
    equalizedAt s.lums (s.lumAt p) ≤ equalizedAt s.lums (s.lumAt q) ↔ s.lumAt p ≤ s.lumAt q := by
  refine ⟨fun hle => ?_, equalizedAt_lumAt_mono hmin⟩
  rcases le_total (s.lumAt p) (s.lumAt q) with h | h
  · exact h
  · exact (hinj p hp q hq (hle.antisymm (equalizedAt_lumAt_mono hmin h))).le

/-- At depth 8 the new luminance of a pixel is the table's entry for the old one. -/
theorem InPlaceResult.lumAt_equal {s t : State} (hd : s.depth = 8) (hmin : cdfMin s.lums < s.npix)
    (ht : InPlaceResult s t s.isize (equalByte s)) {p : Nat} (hp : p < s.npix) :
    t.lumAt p = equalizedAt s.lums (s.lumAt p) := by
  obtain ⟨-, -, hdepth, -, -, -, hib, -⟩ := ht.operands.names
  rw [State.lumAt_of_depth8 (hdepth.trans hd), State.memRead1, hib, ht.inside (State.isize_of_depth8 hd ▸ hp),
    equalByte_toNat_of_depth8 hd hmin]

/-- At depth 8 an injective table keeps the order of the pixels. -/
theorem State.TableInjective.sameLumOrder {s t : State} (hinj : s.TableInjective) (hd : s.depth = 8)
    (hmin : cdfMin s.lums < s.npix) (ht : InPlaceResult s t s.isize (equalByte s)) : s.SameLumOrder t where
  npix := by
    obtain ⟨-, -, -, -, hnpix, -⟩ := ht.operands.names
    exact hnpix
  le_iff p hp q hq := by
    rw [ht.lumAt_equal hd hmin hp, ht.lumAt_equal hd hmin hq, hinj.le_iff hmin hp hq]

/-- A degenerate image is found degenerate again. -/
theorem exec_equal_twice_degenerate {s : State} (hs : s.depth = 8 ∨ s.depth = 24) (hr : s.ImageReady)
    (hd : s.disturbed = false) (hdeg : s.npix = cdfMin s.lums) :
    ∃ t u, exec .equal s = .next t ∧ exec .equal t = .next u ∧ ∀ a, u.byteAt a = t.byteAt a := by
  obtain ⟨t, hst, ht, hmem⟩ := exec_equal_degenerate hs hr hd hdeg
  obtain ⟨-, -, hdepth, -, hnpix, -⟩ := ht.operands.names
  have hdeg' : t.npix = cdfMin t.lums := by rw [hnpix, lums_congr ht.operands (State.byteAt_of_mem hmem), hdeg]
  obtain ⟨u, htu, -, hmem'⟩ :=
    exec_equal_degenerate (hdepth.symm ▸ hs) (hr.keep ht.operands ht.outside.memLast) ht.undisturbed hdeg'
  exact ⟨t, u, hst, htu, State.byteAt_of_mem hmem'⟩

/-- Where the first `EQUAL` keeps the order of the pixels, the table sends every new luminance to itself. -/
theorem exec_equal_twice_injective {s : State} (hd : s.depth = 8) (hr : s.ImageReady) (hu : s.disturbed = false)
    (hinj : s.TableInjective) (hne : s.npix ≠ cdfMin s.lums) :
    ∃ t u, exec .equal s = .next t ∧ exec .equal t = .next u ∧ ∀ a, u.byteAt a = t.byteAt a := by
  obtain ⟨t, hst, ht⟩ := exec_equal (.inl hd) hr hu hne
  obtain ⟨-, -, hdepth, -⟩ := ht.operands.names
  have horder := hinj.sameLumOrder hd (cdfMin_lt_npix hr.npix_pos hne) ht
  have hne' : t.npix ≠ cdfMin t.lums := by rwa [horder.npix, horder.cdfMin_eq hr.npix_pos]
  obtain ⟨u, htu, hur⟩ :=
    exec_equal (.inl (hdepth.trans hd)) (hr.keep ht.operands ht.outside.memLast) ht.undisturbed hne'
  refine ⟨t, u, hst, htu, ht.byteAt_again hur fun k hk => ?_⟩
  rw [equalByte_of_depth8 hd, equalByte_of_depth8 (hdepth.trans hd),
    horder.entry_eq (State.isize_of_depth8 hd ▸ hk)]

/-- Settles O41: a degenerate image is kept twice, and on any other the first `EQUAL` keeps the order of the pixels. -/
theorem equalTwiceIsEqualOnceWhenInjective : Obligations.EqualTwiceIsEqualOnceWhenInjective := by
  intro s hd hr hu hinj
  by_cases hdeg : s.npix = cdfMin s.lums
  · exact exec_equal_twice_degenerate (.inl hd) hr hu hdeg
  · exact exec_equal_twice_injective hd hr hu hinj hdeg

end Sys2Proof.Machine
end

section
/-! The host's bitmap codecs: what a load keeps of a file and what a save writes back: the statements of
44_host_codec.md. -/

namespace Sys2Proof.Machine

/-! The 8-bit codec (44_host_codec.md R126, R127). -/

/-- What an 8-bit load that succeeds takes from the file, and from where. -/
theorem load8_ok {room : Nat} {f : List Byte} {img : Image} (h : load8 room (some f) = .ok img) :
    img.header = f.take 54 ∧ img.palette = (f.drop 54).take 1024 ∧
      img.pixels = (f.drop (fieldLE f 10 4)).take (img.width * img.height) := by
  simp only [load8] at h
  split_ifs at h
  cases h
  exact ⟨rfl, rfl, rfl⟩

/-- Settles O59: header, palette and pixels are three consecutive pieces of the file, and the last one ends it. -/
theorem eightBitCodecRoundTrips : Obligations.EightBitCodecRoundTrips := by
  intro room f img hload hoffset hlen
  obtain ⟨hheader, hpalette, hpixels⟩ := load8_ok hload
  rw [hoffset] at hpixels
  rw [save8, if_pos rfl, hheader, hpalette, hpixels, ← List.take_add, ← List.take_add, List.take_of_length_le hlen.le]

/-! The channels of a 24-bit row (44_host_codec.md R130, R131). -/

@[simp] theorem length_swapChannels (l : List Byte) : (swapChannels l).length = l.length := by
  induction l using swapChannels.induct with
  | case1 b g r rest ih => simp [swapChannels, ih]
  | case2 rest hshort => rw [swapChannels.eq_2 rest hshort]

/-- Swapping blue and red twice gives the row back, whatever is left over after the last whole pixel. -/
@[simp] theorem swapChannels_swapChannels (l : List Byte) : swapChannels (swapChannels l) = l := by
  induction l using swapChannels.induct with
  | case1 b g r rest ih => simp [swapChannels, ih]
  | case2 rest hshort => rw [swapChannels.eq_2 rest hshort, swapChannels.eq_2 rest hshort]

/-! A list cut into rows of one length. -/

/-- The first `h` rows of `n`, one after another. -/
theorem flatMap_range_rows {α : Type} (l : List α) (n h : Nat) :
    ((List.range h).flatMap fun k => (l.drop (k * n)).take n) = l.take (h * n) := by
  induction h with
  | zero => simp
  | succ h ih => rw [List.range_succ, List.flatMap_append, ih, Nat.succ_mul, List.take_add, List.flatMap_singleton]

theorem length_flatMap_range {α : Type} {row : Nat → List α} {n h : Nat} (hrow : ∀ k < h, (row k).length = n) :
    ((List.range h).flatMap row).length = h * n := by
  rw [List.length_flatMap, List.map_congr_left fun k hk => hrow k (List.mem_range.1 hk)]
  simp

/-- Row `k` of rows of `n` put one after another. -/
theorem row_of_flatMap_range {α : Type} {row : Nat → List α} {n h k : Nat} (hrow : ∀ k < h, (row k).length = n)
    (hk : k < h) : (((List.range h).flatMap row).drop (k * n)).take n = row k := by
  induction h with
  | zero => omega
  | succ h ih =>
    have hfront : ∀ k < h, (row k).length = n := fun k hk => hrow k (by omega)
    have hlen := length_flatMap_range hfront
    rw [List.range_succ, List.flatMap_append, List.flatMap_singleton]
    rcases Nat.lt_succ_iff_lt_or_eq.1 hk with hlt | rfl
    · have hend : k * n + n ≤ h * n := Nat.succ_mul k n ▸ Nat.mul_le_mul_right n hlt
      rw [List.drop_append_of_le_length (by omega), List.take_append_of_le_length (by rw [List.length_drop]; omega),
        ih hfront hlt]
    · rw [List.drop_left' hlen, List.take_of_length_le (hrow k hk).le]

/-! The 24-bit codec (44_host_codec.md R130, R131). -/

/-- What a 24-bit load that succeeds takes from the file: the headers, and the picture row by row. -/
theorem load24_ok {lay : HeaderLayout} {room : Nat} {f : List Byte} {img : Image}
    (h : load24 lay room (some f) = .ok img) : img.header = f.take lay.size ∧
      img.pixels = (List.range img.height).flatMap (loadRow (f.drop lay.size) img.width img.height) := by
  simp only [load24] at h
  split_ifs at h
  cases h
  exact ⟨rfl, rfl⟩

theorem length_loadRow {data : List Byte} {width height y : Nat} (hy : y < height)
    (hdata : data.length = height * rowStride width) : (loadRow data width height y).length = width * 3 := by
  have hend : (height - 1 - y) * rowStride width + rowStride width ≤ height * rowStride width :=
    Nat.succ_mul _ _ ▸ Nat.mul_le_mul_right _ (by omega)
  have hstride : rowStride width = width * 3 + rowPadding width := rfl
  rw [loadRow, length_swapChannels, List.length_take, List.length_drop]
  omega

/-- Memory row `y` of the picture is file row `height - 1 - y` with its channels swapped; so file row `k` comes back as
memory row `height - 1 - k`, swapped again. -/
theorem swapChannels_loadRow {data : List Byte} {width height k : Nat} (hk : k < height) :
    swapChannels (loadRow data width height (height - 1 - k)) = (data.drop (k * rowStride width)).take (width * 3) := by
  rw [loadRow, swapChannels_swapChannels, show height - 1 - (height - 1 - k) = k by omega]

/-- A piece of a list that reads as one value throughout is that value repeated. -/
theorem take_drop_eq_replicate {α : Type} {l : List α} {i n : Nat} {v : α} (h : ∀ j < n, l[i + j]? = some v) :
    (l.drop i).take n = List.replicate n v := by
  refine List.ext_getElem? fun j => ?_
  rw [List.getElem?_take, List.getElem?_replicate, List.getElem?_drop]
  split_ifs with hj
  · exact h j hj
  · rfl

/-- The row a save writes is the row the load read, its padding included, where that padding is zero. -/
theorem saveRow_of_loaded {data : List Byte} {img : Image} {k : Nat} (hk : k < img.height)
    (hpixels : img.pixels = (List.range img.height).flatMap (loadRow data img.width img.height))
    (hdata : data.length = img.height * rowStride img.width)
    (hpad : ∀ j < rowPadding img.width, data[k * rowStride img.width + img.width * 3 + j]? = some 0#8) :
    saveRow img k = (data.drop (k * rowStride img.width)).take (rowStride img.width) := by
  have hrow : ∀ y < img.height, (loadRow data img.width img.height y).length = img.width * 3 :=
    fun y hy => length_loadRow hy hdata
  rw [saveRow, hpixels, row_of_flatMap_range hrow (by omega), swapChannels_loadRow hk,
    ← take_drop_eq_replicate hpad, ← List.drop_drop, ← List.take_add, rowStride]

/-- Settles O60: every file row comes back as it was, and the rows after the headers are the whole file. -/
theorem colourCodecRoundTrips : Obligations.ColourCodecRoundTrips := by
  intro lay room f img hload hlen hpad
  obtain ⟨hheader, hpixels⟩ := load24_ok hload
  have hdata : (f.drop lay.size).length = img.height * rowStride img.width := by rw [List.length_drop]; omega
  have hrows : ∀ k ∈ List.range img.height, saveRow img k =
      ((f.drop lay.size).drop (k * rowStride img.width)).take (rowStride img.width) := fun k hk => by
    have hk := List.mem_range.1 hk
    refine saveRow_of_loaded hk hpixels hdata fun j hj => ?_
    rw [List.getElem?_drop, ← hpad k hk j hj]
    congr 1
    omega
  rw [save24, if_pos rfl, hheader, List.flatMap_congr hrows, flatMap_range_rows, ← hdata, List.take_length,
    List.take_append_drop]

end Sys2Proof.Machine
end

section
/-! Errors, the report and the interrupt: the statements of 60_exceptions.md. -/

namespace Sys2Proof.Machine

/-! The causes of the errors, in the terms of the checks of `Validate` (60_exceptions.md R141 to R144). -/

theorem State.causes_format_iff {s : State} {i : Instr} :
    s.causes i .format ↔ depthAccepted i s.depth = false := by
  rw [← Bool.not_eq_true, depthAccepted_iff]
  rfl

theorem State.causes_ksize_iff {s : State} {i : Instr} :
    s.causes i .ksize ↔ usesKernel i = true ∧ s.kn % 2 = 0 := by
  rw [usesKernel_iff]
  simp [State.causes, State.kn, BitVec.getLsbD, Nat.testBit_zero]

theorem State.causes_kdiv_iff {s : State} {i : Instr} : s.causes i .kdiv ↔ usesKernel i = true ∧ s.kd = 0 := by
  rw [usesKernel_iff]
  simp [State.causes, State.kd, ← BitVec.toNat_inj]

theorem State.causes_align_iff {s : State} {i : Instr} :
    s.causes i .align ↔ usesKernel i = true ∧ s.kb % 4 ≠ 0 := by
  rw [usesKernel_iff]
  simp [State.causes, State.kb, ← BitVec.toNat_inj]

theorem State.causes_range_iff {s : State} {i : Instr} : s.causes i .range ↔ s.memBytes < s.ib + s.isize ∨
    (usesKernel i = true ∧ (s.memBytes < s.ob + s.isize ∨ s.memBytes < s.kb + s.kbytes)) := by
  rw [usesKernel_iff]
  rfl

/-- Two buffers that overlap and have bytes have one in common. -/
theorem common_byte_of_overlap {a sa b sb : Nat} (ha : 0 < sa) (hb : 0 < sb) (h : overlap a sa b sb = true) :
    ∃ x, (a ≤ x ∧ x < a + sa) ∧ (b ≤ x ∧ x < b + sb) := by
  simp only [overlap, Bool.and_eq_true, decide_eq_true_eq] at h
  exact ⟨max a b, by omega, by omega⟩

theorem State.isize_pos {s : State} (hw : s.W ≠ 0) (hh : s.H ≠ 0) : 0 < s.isize :=
  Nat.mul_pos (Nat.mul_pos (by omega) (by omega)) s.bpp_pos

theorem State.kbytes_pos {s : State} (h : s.kn % 2 = 1) : 0 < s.kbytes :=
  Nat.mul_pos (Nat.mul_pos (by omega) (by omega)) (by omega)

/-- Where the checks before have passed, no buffer is empty, and an overlap is a byte in common. -/
theorem State.causes_overlap_of_check {s : State} {i : Instr} (hw : s.W ≠ 0) (hh : s.H ≠ 0) (hodd : s.kn % 2 = 1)
    (hk : usesKernel i = true)
    (h : overlap s.ob s.isize s.ib s.isize = true ∨ overlap s.ob s.isize s.kb s.kbytes = true) :
    s.causes i .overlap := by
  have hi := State.isize_pos hw hh
  refine ⟨(usesKernel_iff i).1 hk, ?_⟩
  rcases h with himage | hkernel
  · obtain ⟨a, hout, hread⟩ := common_byte_of_overlap hi hi himage
    exact ⟨a, hout, .inl hread⟩
  · obtain ⟨a, hout, hread⟩ := common_byte_of_overlap hi (State.kbytes_pos hodd) hkernel
    exact ⟨a, hout, .inr hread⟩

/-- The output buffer of an accepted command shares no byte with what it reads. -/
theorem not_causes_overlap_of_accepted {i : Instr} {s : State} (h : validate i s = .none) :
    ¬ s.causes i .overlap := by
  rintro ⟨hi, a, hout, hread⟩
  obtain ⟨-, -, -, -, hconv⟩ := (validate_eq_none_iff i s).1 h
  obtain ⟨-, -, -, -, -, himage, hkernel⟩ := hconv ((usesKernel_iff i).2 hi)
  omega

/-! The order of the checks (60_exceptions.md R145). -/

/-- The error codes that `Validate` may report, in the order of its checks (40_command_cycle.md R75). -/
def checkOrder : List ErrCode := [.format, .dim, .ksize, .kdiv, .align, .range, .overlap]

/-- The order of the checks is that of the numbers of their codes. -/
theorem checkOrder_sorted : checkOrder.Pairwise fun d e => d.code.toNat ≤ e.code.toNat := by decide

/-- Every cause is looked for. -/
theorem State.causes.mem_checkOrder {s : State} {i : Instr} {e : ErrCode} (h : s.causes i e) : e ∈ checkOrder := by
  cases e with
  | none => exact h.elim
  | op => exact h.elim
  | _ => decide

/-- `Validate` accepts when no cause applies, and else reports the first in the order of the checks. -/
theorem validate_first (i : Instr) (s : State) :
    (validate i s = .none ∧ ∀ e ∈ checkOrder, ¬ s.causes i e) ∨
    ∃ passed later, checkOrder = passed ++ validate i s :: later ∧ s.causes i (validate i s) ∧
      ∀ e ∈ passed, ¬ s.causes i e := by
  rcases validate_cases i s with ⟨hv, hd⟩ | ⟨hd, h⟩
  · rw [hv]
    exact .inr ⟨[], _, rfl, State.causes_format_iff.2 hd, by simp⟩
  have hformat : ¬ s.causes i .format := by simp [State.causes_format_iff, hd]
  rcases h with ⟨hv, hz⟩ | ⟨hw, hh, h⟩
  · rw [hv]
    exact .inr ⟨[.format], _, rfl, hz, by simp [hformat]⟩
  have hdim : ¬ s.causes i .dim := not_or.2 ⟨hw, hh⟩
  rcases h with ⟨hv, hk⟩ | ⟨hodd, h⟩
  · rw [hv]
    exact .inr ⟨[.format, .dim], _, rfl, State.causes_ksize_iff.2 hk, by simp [hformat, hdim]⟩
  have hksize : ¬ s.causes i .ksize := by
    rw [State.causes_ksize_iff]
    rintro ⟨hu, heven⟩
    have := hodd hu
    omega
  rcases h with ⟨hv, hk⟩ | ⟨hkd, h⟩
  · rw [hv]
    exact .inr ⟨[.format, .dim, .ksize], _, rfl, State.causes_kdiv_iff.2 hk, by simp [hformat, hdim, hksize]⟩
  have hkdiv : ¬ s.causes i .kdiv := by
    rw [State.causes_kdiv_iff]
    exact fun ⟨hu, hzero⟩ => hkd hu hzero
  rcases h with ⟨hv, hk⟩ | ⟨hal, h⟩
  · rw [hv]
    exact .inr ⟨[.format, .dim, .ksize, .kdiv], _, rfl, State.causes_align_iff.2 hk,
      by simp [hformat, hdim, hksize, hkdiv]⟩
  have halign : ¬ s.causes i .align := by
    rw [State.causes_align_iff]
    exact fun ⟨hu, hne⟩ => hne (hal hu)
  rcases h with ⟨hv, hr⟩ | ⟨hin, hkin, h⟩
  · rw [hv]
    exact .inr ⟨[.format, .dim, .ksize, .kdiv, .align], _, rfl, State.causes_range_iff.2 hr,
      by simp [hformat, hdim, hksize, hkdiv, halign]⟩
  have hrange : ¬ s.causes i .range := by
    rw [State.causes_range_iff]
    rintro (hout | ⟨hu, hout⟩)
    · omega
    · have := hkin hu
      omega
  rcases h with ⟨hv, hk, ho⟩ | hv
  · rw [hv]
    exact .inr ⟨[.format, .dim, .ksize, .kdiv, .align, .range], _, rfl,
      State.causes_overlap_of_check hw hh (hodd hk) hk ho, by simp [hformat, hdim, hksize, hkdiv, halign, hrange]⟩
  have hoverlap := not_causes_overlap_of_accepted hv
  exact .inl ⟨hv, by simp [checkOrder, hformat, hdim, hksize, hkdiv, halign, hrange, hoverlap]⟩

/-- Whatever causes an error keeps a command from being accepted, and the code reported is no larger than its own. -/
theorem validate_code_le {i : Instr} {s : State} {e : ErrCode} (h : s.causes i e) :
    validate i s ≠ .none ∧ (validate i s).code.toNat ≤ e.code.toNat := by
  have hmem := h.mem_checkOrder
  rcases validate_first i s with ⟨-, hnone⟩ | ⟨passed, later, horder, hv, hpassed⟩
  · exact absurd h (hnone e hmem)
  have hsorted := checkOrder_sorted
  rw [horder, List.pairwise_append, List.pairwise_cons] at hsorted
  obtain ⟨-, ⟨hlater, -⟩, -⟩ := hsorted
  refine ⟨fun hnone => by rwa [hnone] at hv, ?_⟩
  rw [horder, List.mem_append, List.mem_cons] at hmem
  rcases hmem with he | rfl | he
  · exact absurd h (hpassed e he)
  · exact le_rfl
  · exact hlater e he

/-- What `Validate` reports is caused. -/
theorem causes_validate {i : Instr} {s : State} (h : validate i s ≠ .none) : s.causes i (validate i s) := by
  rcases validate_first i s with ⟨hnone, -⟩ | ⟨-, -, -, hv, -⟩
  · exact absurd hnone h
  · exact hv

/-! An illegal word (60_exceptions.md R140). -/

theorem step_engineNext {s : State} {rest : List Input} (h : s.engineNext rest) :
    step s = State.engineTurn { s with inputs := rest } := by
  rcases h with ⟨hin, rfl⟩ | hin
  · rw [step_eq_take, hin]
    rfl
  · exact step_engine hin

/-- The engine's turn on an illegal word reports `E_OP`, whatever else the state holds. -/
theorem step_of_illegal_word {s : State} {rest : List Input} (hb : s.status.busy = true) (hn : s.engineNext rest)
    (he : ∃ e, decodeWord s.cmd = .error e) : step s = .next (State.raiseError { s with inputs := rest } .op) := by
  obtain ⟨e, he⟩ := he
  rw [step_engineNext hn]
  rcases engineTurn_cases { s with inputs := rest } with ⟨hidle, -⟩ | ⟨-, -, -, h⟩ | ⟨-, i, hi, -⟩
  · exact absurd (hidle.symm.trans hb) Bool.false_ne_true
  · exact h
  · cases he.symm.trans hi

/-- Settles O8: the fields are those the decoder refuses, and `raiseError` touches `STATUS` alone. -/
theorem illegalWordEndsWithEOp : Obligations.IllegalWordEndsWithEOp := by
  intro s rest hb hn hw
  have he : ∃ e, decodeWord s.cmd = .error e := by
    rw [decodeWord_error_iff, Ne, Ne, ← BitVec.toNat_inj, ← BitVec.toNat_inj, opField_toNat, rsvField_toNat,
      immField_toNat]
    rcases hw with hop | hop | hrsv | himm
    · exact .inr (.inl hop)
    · exact .inr (.inr (.inl hop))
    · exact .inl hrsv
    · exact .inr (.inr (.inr himm))
  exact ⟨_, step_of_illegal_word hb hn he, rfl, ⟨⟨rfl, rfl, rfl, rfl, rfl, rfl⟩, rfl, rfl⟩,
    State.sameOutside_raiseError _ _, rfl, rfl, rfl⟩

/-- Settles O10: the report is that of `Validate`, which finds the first cause in the order of the codes. -/
theorem lowestApplicableCodeIsReported : Obligations.LowestApplicableCodeIsReported := by
  refine ⟨fun i s => ?_, fun s rest hb hn he => ⟨_, step_of_illegal_word hb hn he, rfl, rfl⟩⟩
  obtain ⟨t, h⟩ := exec_next i s
  refine ⟨t, h, ?_⟩
  rw [exec_status h]
  by_cases hv : validate i s = .none
  · rw [hv]
    exact ⟨iff_of_true rfl fun e he => (validate_code_le he).1 hv, nofun⟩
  · rw [Status.completed_of_ne hv]
    exact ⟨iff_of_false nofun fun hnone => hnone _ (causes_validate hv),
      fun _ => ⟨causes_validate hv, fun e he => (validate_code_le he).2⟩⟩

/-! One error reported (60_exceptions.md R141, R142, R146). -/

/-- A command refused with the code `e` reports it and does nothing else. -/
theorem exec_of_refused {i : Instr} {s : State} {e : ErrCode} (hv : validate i s = e) (he : e ≠ .none) :
    ∃ t, exec i s = .next t ∧ t.status = ⟨false, true, true, e⟩ ∧ t.mem = s.mem ∧ s.SameOperands t ∧
      s.SameOutside t := by
  subst hv
  obtain ⟨⟨t, h, hst, hops, hout, hmem, -⟩, -⟩ := refusedCommandOnlyReports i s he
  exact ⟨t, h, hst, hmem, hops, hout⟩

/-- Settles O24: none of these depths suits, and the depth is the first check. -/
theorem wrongDepthIsRefused : Obligations.WrongDepthIsRefused := by
  intro i s h
  have hd : ¬ depthSuits i s.depth := by
    rcases h with ⟨h8, h24⟩ | ⟨rfl, h8⟩ | ⟨imm, rfl, h24⟩
    · cases i <;> simp [depthSuits, h8, h24]
    · simp [depthSuits, h8]
    · simp [depthSuits, h24]
  have hv : validate i s = .format := if_pos (State.causes_format_iff.1 hd)
  exact exec_of_refused hv nofun

/-- Settles O25: the size is the check after the depth. -/
theorem zeroSizeIsRefused : Obligations.ZeroSizeIsRefused := by
  intro i s hd hz
  have hsize : s.W = 0 ∨ s.H = 0 := hz.imp (congrArg BitVec.toNat) (congrArg BitVec.toNat)
  have hv : validate i s = .dim := by
    rw [validate, if_neg (by simp [(depthAccepted_iff ..).2 hd]), if_pos hsize]
  exact exec_of_refused hv nofun

/-! The interrupt and the acknowledge (60_exceptions.md R148, R150). -/

theorem State.irq_writeReg_ctrl {s : State} {v : Word} (hb : s.status.busy = false) :
    (s.writeReg .ctrl v).irq = (s.status.done && v.getLsbD 0) := by
  rw [State.writeReg_of_idle hb]
  rfl

/-- Settles O42: a register write reaches `irq` through `STATUS` or `CTRL` alone. -/
theorem interruptIsDoneAndEnabled : Obligations.InterruptIsDoneAndEnabled := by
  intro s
  refine ⟨Bool.and_eq_true_iff, fun i => ?_, fun hb => ⟨?_, fun w => ?_, fun v hv => ?_, fun v hv => ?_⟩⟩
  · obtain ⟨t, h, -, -, -, -, -, hirq⟩ := everyCommandReportsCompletion i s
    exact ⟨t, h, hirq⟩
  · rw [State.writeReg_of_idle hb]
    rfl
  · rw [State.writeReg_of_idle hb]
    rfl
  · rw [State.irq_writeReg_ctrl hb, hv, Bool.and_false]
  · rw [State.irq_writeReg_ctrl hb, hv, Bool.and_true]

/-- An idle write to `STATUS` acknowledges when bit 1 is set, and is discarded otherwise (10_state.md R27). -/
theorem State.writeReg_status {s : State} {v : Word} (hb : s.status.busy = false) :
    s.writeReg .status v = if v.getLsbD 1 then s.acknowledge else s :=
  State.writeReg_of_idle hb _ _

/-- Settles O44: a write to `STATUS` acknowledges or is discarded, and a write to `CMD` issues. -/
theorem statusWriteAcknowledges : Obligations.StatusWriteAcknowledges := by
  intro s v w rest
  have hstep : step { s with inputs := .regWrite 0x08 4 v :: rest } =
      .next (State.writeReg { s with inputs := rest } .status v) := step_regWrite (.inl rfl) rfl
  refine ⟨fun hb hv => ?_, fun h => ?_, fun hb => ?_⟩
  · rw [State.writeReg_status (s := { s with inputs := rest }) hb, if_pos hv, State.acknowledge,
      Status.acknowledged_of_idle hb] at hstep
    exact ⟨_, hstep, rfl, rfl⟩
  · rw [hstep]
    cases hb : s.status.busy with
    | true => rw [State.writeReg_of_busy (s := { s with inputs := rest }) hb]
    | false =>
      have hv : v.getLsbD 1 = false := h.resolve_left (by simp [hb])
      rw [State.writeReg_status (s := { s with inputs := rest }) hb, hv]
      rfl
  · obtain ⟨hissue, -⟩ := cmdWriteIssues { s with inputs := .regWrite 0x0C 4 w :: rest } w rest rfl
    obtain ⟨t, ht, -, hst, -⟩ := hissue hb
    exact ⟨t, ht, congrArg Status.done hst, congrArg Status.err hst, congrArg Status.errcode hst⟩

end Sys2Proof.Machine
end

section
/-! Reset, the idle engine, and a host that keeps its hands off: the statements of 70_reset_and_hazards.md. -/

namespace Sys2Proof.Machine

/-! The idle engine (70_reset_and_hazards.md R155). -/

/-- Settles O53: with nothing listed the step is the engine's turn, and idle that changes nothing. -/
theorem idleEngineDoesNothing : Obligations.IdleEngineDoesNothing := by
  intro s hb hin
  rw [step_of_inputs, hin]
  exact engineTurn_of_idle hb

/-! Reset (70_reset_and_hazards.md R155, R156). -/

theorem step_reset {s : State} {rest : List Input} (hin : s.inputs = .reset :: rest) :
    step s = .next (State.applyReset { s with inputs := rest }) := by
  rw [step_of_inputs, hin]
  rfl

/-- After a reset every register reads its reset value, whatever ran before it. -/
theorem State.readReg_applyReset (s : State) (r : Reg) : s.applyReset.readReg r = State.reset.readReg r := by
  cases r <;> rfl

theorem State.irq_applyReset (s : State) : s.applyReset.irq = false := rfl

/-- With no command to be performed there is nothing to abandon. -/
theorem State.abandon_of_not_running {s : State} (h : ∀ i, s.running ≠ some i) : s.abandon = s := by
  rw [State.abandon, Option.eq_none_iff_forall_ne_some.2 h]

theorem State.abandon_of_idle {s : State} (hb : s.status.busy = false) : s.abandon = s :=
  State.abandon_of_not_running fun _ hr => absurd (hb.symm.trans (State.running_eq_some.1 hr).1) Bool.false_ne_true

/-- An illegal word was going to write nothing (log 7). -/
theorem State.abandon_of_illegal {s : State} (h : ∃ e, decodeWord s.cmd = .error e) : s.abandon = s := by
  obtain ⟨e, he⟩ := h
  refine State.abandon_of_not_running fun i hr => ?_
  obtain ⟨-, hi, -⟩ := State.running_eq_some.1 hr
  cases he.symm.trans hi

/-- A command that `Validate` would refuse was going to write nothing (log 7). -/
theorem State.abandon_of_refused {s : State} {i : Instr} (hd : decodeWord s.cmd = .ok i) (hv : validate i s ≠ .none) :
    s.abandon = s := by
  refine State.abandon_of_not_running fun j hr => ?_
  obtain ⟨-, hj, hnone⟩ := State.running_eq_some.1 hr
  cases hd.symm.trans hj
  exact hv hnone

/-- A reset that abandons nothing writes no memory (70_reset_and_hazards.md R155). -/
theorem State.applyReset_mem_of_abandon {s : State} (h : s.abandon = s) : s.applyReset.mem = s.mem :=
  s.applyReset_mem.trans (congrArg State.mem h)

/-- A reset changes no byte outside the destination of the command in `CMD` (20_memory.md R49). -/
theorem State.applyReset_sameBytesBut_target {s : State} {i : Instr} (hd : decodeWord s.cmd = .ok i) :
    s.SameBytesBut s.applyReset (s.buffersOf i).target.1 (s.buffersOf i).target.2 := by
  intro a ha
  rcases s.abandon_mem with h | ⟨j, hr, h⟩
  · exact State.byteAt_of_mem h a
  · obtain ⟨-, hj, -⟩ := State.running_eq_some.1 hr
    cases hd.symm.trans hj
    obtain ⟨hbase, hsize⟩ := writes_in_target i s
    calc s.applyReset.byteAt a = s.abandon.byteAt a := State.byteAt_of_mem s.applyReset_mem a
      _ = s.byteAt a := by
        rw [h]
        exact s.byteAt_forget_outside (by omega)

/-- Settles O50: the step is an `applyReset`, which abandons nothing while idle and leaves the engine idle. -/
theorem resetRestoresRegisters : Obligations.ResetRestoresRegisters := by
  intro s rest hin
  refine ⟨_, step_reset hin, State.readReg_applyReset _, State.irq_applyReset _, rfl, rfl, fun hb => ?_,
    idleEngineDoesNothing _ rfl rfl⟩
  exact State.applyReset_mem_of_abandon (s := { s with inputs := rest }) (State.abandon_of_idle hb)

/-- Settles O51: only an accepted command is abandoned, and what it was going to write lies in its destination. -/
theorem resetAbandonsTheCommand : Obligations.ResetAbandonsTheCommand := by
  intro s rest _ hin
  refine ⟨_, step_reset hin, State.readReg_applyReset _, State.irq_applyReset _, rfl, rfl, fun he => ?_,
    fun i hd => ⟨fun hv => ?_, fun hi => ?_, fun hi => ?_⟩⟩
  · exact State.applyReset_mem_of_abandon (s := { s with inputs := rest }) (State.abandon_of_illegal he)
  · exact State.applyReset_mem_of_abandon (s := { s with inputs := rest }) (State.abandon_of_refused hd hv)
  · have hbut := State.applyReset_sameBytesBut_target (s := { s with inputs := rest }) hd
    rwa [target_of_ne_conv hi] at hbut
  · subst hi
    exact State.applyReset_sameBytesBut_target (s := { s with inputs := rest }) hd

/-! Free values and the mark of a disturbed command (70_reset_and_hazards.md R160, 20_memory.md R54). -/

/-- A buffer write of an undisturbed command stores no free value. -/
theorem State.writeBuffer_freeIdx {s : State} (hd : s.disturbed = false) (base size : Nat) (f : Nat → Byte) :
    (s.writeBuffer base size f).freeIdx = s.freeIdx := by
  simp [State.writeBuffer, hd]

theorem performOf_freeIdx (i : Instr) {s : State} (hd : s.disturbed = false) :
    (performOf i s).freeIdx = s.freeIdx := by
  cases i <;> exact State.writeBuffer_freeIdx hd ..

/-- An undisturbed engine's turn uses up no free value and disturbs no command. -/
theorem engineTurn_usesUpNoFreeValue {s t : State} (hd : s.disturbed = false) (h : s.engineTurn = .next t) :
    t.freeIdx = s.freeIdx ∧ t.disturbed = false := by
  rcases engineTurn_inv h with ⟨-, rfl⟩ | ⟨-, e, rfl⟩ | ⟨-, i, -, rfl⟩
  · exact ⟨rfl, hd⟩
  · exact ⟨rfl, rfl⟩
  · exact ⟨performOf_freeIdx i hd, rfl⟩

/-- A register write uses up no free value and disturbs no command. -/
theorem State.writeReg_usesUpNoFreeValue {s : State} (hd : s.disturbed = false) (r : Reg) (v : Word) :
    (s.writeReg r v).freeIdx = s.freeIdx ∧ (s.writeReg r v).disturbed = false := by
  cases hb : s.status.busy with
  | true =>
    rw [State.writeReg_of_busy hb]
    exact ⟨rfl, hd⟩
  | false =>
    rw [State.writeReg_of_idle hb, State.writeIdleReg_disturbed, hd, ite_self]
    exact ⟨s.writeIdleReg_freeIdx v r, rfl⟩

/-- An input that keeps off the buffers and resets no busy engine uses up no free value and disturbs no command. -/
theorem take_usesUpNoFreeValue {s t : State} {e : Input} (hoff : State.handsOff { s with inputs := e :: s.inputs })
    (hd : s.disturbed = false) (hreset : s.status.busy = true → e ≠ .reset) (h : s.take e = .next t) :
    t.freeIdx = s.freeIdx ∧ t.disturbed = false := by
  cases e with
  | engine => exact engineTurn_usesUpNoFreeValue hd h
  | regRead offset size =>
    obtain ⟨r, -, rfl⟩ := State.regRead_eq_next_iff.1 h
    exact ⟨s.hostReadReg_freeIdx r, (s.hostReadReg_disturbed r).trans hd⟩
  | regWrite offset size v =>
    obtain ⟨r, -, rfl⟩ := State.regWrite_eq_next_iff.1 h
    exact State.writeReg_usesUpNoFreeValue hd r v
  | memRead a =>
    obtain ⟨ha, -⟩ := hostRead_inv h
    obtain ⟨hr, hu⟩ := hoff
    cases (State.hostRead_of_unwritten ha hr hu).symm.trans h
    exact ⟨rfl, hd⟩
  | memWrite a v =>
    obtain ⟨ha, -⟩ := hostWrite_inv h
    obtain ⟨hr, hu⟩ := hoff
    cases (State.hostWrite_of_uncovered v ha hr hu).symm.trans h
    exact ⟨rfl, hd⟩
  | wait =>
    cases h
    exact ⟨rfl, hd⟩
  | reset =>
    have hb : s.status.busy = false := Bool.eq_false_iff.2 fun hb => hreset hb rfl
    cases h
    exact ⟨s.applyReset_freeIdx.trans (congrArg State.freeIdx (State.abandon_of_idle hb)), rfl⟩

/-- Settles O56: the input used up, each kind of input leaves the counter and the mark alone. -/
theorem handsOffUsesUpNoFreeValue : Obligations.HandsOffUsesUpNoFreeValue := by
  intro s t hoff hd hreset h
  rw [step_of_inputs] at h
  cases hin : s.inputs with
  | nil =>
    rw [hin] at h
    exact engineTurn_usesUpNoFreeValue hd h
  | cons e rest =>
    rw [hin] at h hreset
    have hoff' : State.handsOff { s with inputs := e :: rest } := by
      rw [← hin]
      exact hoff
    exact take_usesUpNoFreeValue (s := { s with inputs := rest }) hoff' hd
      (fun hb he => hreset hb (congrArg some he)) h

end Sys2Proof.Machine
end

section
/-! The command word: decoding and encoding undo each other, and the opcode map: the statements of 30_encoding.md. -/

namespace Sys2Proof

/-- A word is determined by its three fields. -/
theorem word_ext_fields {w v : Word} (himm : immField w = immField v) (hrsv : rsvField w = rsvField v)
    (hop : opField w = opField v) : w = v :=
  BitVec.eq_of_toNat_eq (by rw [toNat_eq_fields w, toNat_eq_fields v, himm, hrsv, hop])

theorem decodeWord_of_op_bright {w : Word} (hrsv : rsvField w = 0#12) (hop : opField w = 3#4) :
    decodeWord w = .ok (.bright (sext16 (immField w))) := by
  simp [decodeWord, hrsv, hop]

theorem decodeWord_of_op_thresh {w : Word} (hrsv : rsvField w = 0#12) (hop : opField w = 4#4) :
    decodeWord w = .ok (.thresh (sext16 (immField w))) := by
  simp [decodeWord, hrsv, hop]

/-- The word of a command whose immediate fits decodes to that command. -/
theorem decodeWord_encode {i : Instr} (h : i.wf = true) : decodeWord (encode i) = .ok i := by
  cases i with
  | neg | gray | conv | equal => rfl
  | bright imm =>
    rw [decodeWord_of_op_bright (rsvField_encode _) (opField_encode _), immField_encode, Instr.immediate,
      sext16_ofInt h]
  | thresh imm =>
    rw [decodeWord_of_op_thresh (rsvField_encode _) (opField_encode _), immField_encode, Instr.immediate,
      sext16_ofInt h]

/-- A word that decodes is the word of what it decodes to. -/
theorem encode_of_decodeWord {w : Word} {i : Instr} (h : decodeWord w = .ok i) : encode i = w := by
  obtain ⟨hrsv, hop, himm, -⟩ := decodeWord_fields h
  exact word_ext_fields ((immField_encode i).trans himm.symm) ((rsvField_encode i).trans hrsv.symm)
    ((opField_encode i).trans hop.symm)

/-- The words that decode to a command: its own word, when its immediate fits. -/
theorem decodeWord_eq_ok_iff {w : Word} {i : Instr} : decodeWord w = .ok i ↔ encode i = w ∧ i.wf = true := by
  constructor
  · intro h
    obtain ⟨-, -, -, hwf⟩ := decodeWord_fields h
    exact ⟨encode_of_decodeWord h, hwf⟩
  · rintro ⟨rfl, hwf⟩
    exact decodeWord_encode hwf

/-- Settles O1: the fields of the encoded word are those the decoder looks for. -/
theorem encodedCommandsDecodeBack : Obligations.EncodedCommandsDecodeBack := fun _ h => decodeWord_encode h

/-- Settles O2: a word is its three fields, and the decoder fixes all of them. -/
theorem decodedWordsEncodeBack : Obligations.DecodedWordsEncodeBack := fun _ _ => decodeWord_eq_ok_iff.1

/-! The opcode map (R63). -/

/-- A row under the full mask: a command without immediate has one word. -/
theorem decodeWord_eq_ok_iff_fullMask (w : Word) {i : Instr} (h : i.wf = true) :
    decodeWord w = .ok i ↔ w &&& 0xFFFFFFFF#32 = encode i := by
  have hmask : w &&& 0xFFFFFFFF#32 = w := BitVec.and_allOnes
  rw [hmask, decodeWord_eq_ok_iff, and_iff_left h, eq_comm]

/-- A row under the low half's mask fixes `RSV` and `OP` alone. -/
theorem and_lowHalf_eq_iff (w : Word) (op : BitVec 4) :
    w &&& 0x0000FFFF#32 = op.setWidth 32 ↔ rsvField w = 0#12 ∧ opField w = op := by
  have hmask : (w &&& 0x0000FFFF#32).toNat = w.toNat % 65536 := by
    rw [BitVec.toNat_and]
    exact Nat.and_two_pow_sub_one_eq_mod w.toNat 16
  have hop := op.isLt
  rw [← BitVec.toNat_inj, ← BitVec.toNat_inj, ← BitVec.toNat_inj, hmask, rsvField_toNat, opField_toNat,
    BitVec.toNat_setWidth_of_le (by decide), BitVec.toNat_ofNat]
  omega

/-- A row under the low half's mask: every word with that `OP` and `RSV = 0` is the command, for some immediate. -/
theorem exists_decodeWord_iff_lowHalf {f : Int → Instr} {op : BitVec 4} (hop : ∀ imm, (f imm).opcode = op)
    (hdec : ∀ {w : Word}, rsvField w = 0#12 → opField w = op → decodeWord w = .ok (f (sext16 (immField w))))
    (w : Word) :
    (∃ imm, decodeWord w = .ok (f imm)) ↔ w &&& 0x0000FFFF#32 = op.setWidth 32 := by
  rw [and_lowHalf_eq_iff]
  constructor
  · rintro ⟨imm, h⟩
    obtain ⟨hrsv, hw, -⟩ := decodeWord_fields h
    exact ⟨hrsv, hw.trans (hop imm)⟩
  · rintro ⟨hrsv, hw⟩
    exact ⟨_, hdec hrsv hw⟩

/-- Settles O3: row by row, the full mask names one word and the low half's mask the fields `RSV` and `OP`. -/
theorem decoderIsTheOpcodeMap : Obligations.DecoderIsTheOpcodeMap := fun w =>
  ⟨decodeWord_eq_ok_iff_fullMask w rfl, decodeWord_eq_ok_iff_fullMask w rfl,
    exists_decodeWord_iff_lowHalf (f := .bright) (fun _ => rfl) decodeWord_of_op_bright w,
    exists_decodeWord_iff_lowHalf (f := .thresh) (fun _ => rfl) decodeWord_of_op_thresh w,
    decodeWord_eq_ok_iff_fullMask w rfl, decodeWord_eq_ok_iff_fullMask w rfl⟩

/-- Settles O4: each word is the encoding of its command. -/
theorem exampleWordsDecode : Obligations.ExampleWordsDecode := by
  unfold Obligations.ExampleWordsDecode
  simp only [decodeWord_eq_ok_iff]
  decide

/-! The immediate (R61, R66). -/

/-- A command without immediate carries zero, which fits too. -/
theorem immFits_immediate {i : Instr} (h : i.wf = true) : immFits i.immediate = true := by
  cases i with
  | bright | thresh => exact h
  | neg | gray | conv | equal => rfl

/-- The immediate of a word that decodes is its `IMM` field, sign-extended. -/
theorem immediate_of_decodeWord {w : Word} {i : Instr} (h : decodeWord w = .ok i) :
    i.immediate = sext16 (immField w) := by
  obtain ⟨-, -, himm, hwf⟩ := decodeWord_fields h
  rw [himm, sext16_ofInt (immFits_immediate hwf)]

/-- Sign extension by the two halves of the field's range. -/
theorem sext16_immField (w : Word) :
    (w.toNat / 65536 < 32768 → sext16 (immField w) = (w.toNat / 65536 : Nat)) ∧
      (32768 ≤ w.toNat / 65536 → sext16 (immField w) = (w.toNat / 65536 : Nat) - 65536) := by
  rw [sext16, immField_toNat]
  exact ⟨fun h => if_pos h, fun h => if_neg (not_lt.2 h)⟩

/-- The word of a command, as the integer formula of R66. -/
theorem encode_toNat_int (i : Instr) :
    ((encode i).toNat : Int) = i.immediate % 65536 * 65536 + (i.opcode.toNat : Nat) := by
  rw [encode_toNat, Nat.cast_add, Nat.cast_mul, Int.toNat_of_nonneg (Int.emod_nonneg _ (by decide)), Nat.cast_ofNat]

/-- Settles O5: `IMM` sign-extended in both halves of its range, and the word by its fields. -/
theorem immediateIsTheSignedHighHalf : Obligations.ImmediateIsTheSignedHighHalf := by
  refine ⟨fun w imm h => ?_, fun imm => ⟨encode_toNat_int (.bright imm), encode_toNat_int (.thresh imm)⟩⟩
  have himm : imm = sext16 (immField w) := h.elim immediate_of_decodeWord immediate_of_decodeWord
  rw [himm]
  exact sext16_immField w

end Sys2Proof
end

section
/-! The engine's turn and the registers a command does not read, and `NEG` undone by `NEG`: the statements left of
40_command_cycle.md, 10_state.md and 41_point_filters.md. -/

namespace Sys2Proof.Machine

/-! The engine's turn as a step (40_command_cycle.md R74). -/

theorem step_of_noInputs {s : State} (hin : s.inputs = []) : step s = s.engineTurn := by
  rw [step_of_inputs, hin]

/-- Settles O7: either form of the turn is `engineTurn`, which runs the command `CMD` decodes to. -/
theorem stepExecutesDecodedCommand : Obligations.StepExecutesDecodedCommand := fun s _ hb hd =>
  ⟨fun hin => (step_of_noInputs hin).trans (engineTurn_of_command hb hd),
    fun rest hin => (step_engine hin).trans (engineTurn_of_command (s := { s with inputs := rest }) hb hd)⟩

/-! The registers `CONV` alone reads (10_state.md R38). -/

/-- The state with other values in the output base and the three kernel registers. -/
abbrev State.withConvRegs (s : State) (ob kb ks kd : Word) : State :=
  { s with outBase := ob, krnBase := kb, krnSize := ks, krnDiv := kd }

theorem usesKernel_of_ne_conv {i : Instr} (hi : i ≠ .conv) : usesKernel i = false :=
  Bool.eq_false_iff.2 fun h => hi ((usesKernel_iff i).1 h)

/-- `Validate` of every command but `CONV` is the checks of depth, size and image alone. -/
theorem validate_of_ne_conv {i : Instr} (hi : i ≠ .conv) (s : State) : validate i s =
    if depthAccepted i s.depth = false then .format
    else if s.W = 0 ∨ s.H = 0 then .dim
    else if s.inRange s.ib s.isize = false then .range
    else .none := by
  simp [validate, usesKernel_of_ne_conv hi]

theorem validate_withConvRegs {i : Instr} (hi : i ≠ .conv) (s : State) (ob kb ks kd : Word) :
    validate i (s.withConvRegs ob kb ks kd) = validate i s := by
  rw [validate_of_ne_conv hi, validate_of_ne_conv hi]
  rfl

theorem buffersOf_withConvRegs {i : Instr} (hi : i ≠ .conv) (s : State) (ob kb ks kd : Word) :
    (s.withConvRegs ob kb ks kd).buffersOf i = s.buffersOf i := by
  cases i with
  | conv => exact absurd rfl hi
  | neg | gray | bright | thresh | equal => rfl

theorem State.writeBuffer_withConvRegs (s : State) (ob kb ks kd : Word) (base size : Nat) (f : Nat → Byte) :
    (s.withConvRegs ob kb ks kd).writeBuffer base size f = (s.writeBuffer base size f).withConvRegs ob kb ks kd := by
  unfold State.writeBuffer
  split <;> rfl

/-- In place, `Perform` computes its bytes from the image alone and leaves the four registers as they are. -/
theorem performOf_withConvRegs {i : Instr} (hi : i ≠ .conv) (s : State) (ob kb ks kd : Word) :
    performOf i (s.withConvRegs ob kb ks kd) = (performOf i s).withConvRegs ob kb ks kd := by
  cases i with
  | conv => exact absurd rfl hi
  | neg | gray | bright | thresh | equal => exact s.writeBuffer_withConvRegs ob kb ks kd ..

/-- Every command but `CONV` gives the same next state whatever the four registers hold, but for those registers. -/
theorem exec_withConvRegs {i : Instr} (hi : i ≠ .conv) {s t : State} (h : exec i s = .next t) (ob kb ks kd : Word) :
    exec i (s.withConvRegs ob kb ks kd) = .next (t.withConvRegs ob kb ks kd) := by
  rw [exec_eq_runCommand, runCommand, validate_withConvRegs hi, performOf_withConvRegs hi, buffersOf_withConvRegs hi]
  rcases exec_inv h with ⟨hv, rfl⟩ | ⟨hv, rfl⟩
  · exact if_neg hv
  · exact if_pos hv

/-- Settles O14: refused or performed, the command does not look at the four registers. -/
theorem unreadRegistersHaveNoEffect : Obligations.UnreadRegistersHaveNoEffect := by
  intro i s ob kb ks kd hi
  obtain ⟨t, h⟩ := exec_next i s
  exact ⟨t, h, exec_withConvRegs hi h ob kb ks kd⟩

/-! `NEG` twice (41_point_filters.md R86, R91). -/

theorem State.SameOperands.trans {s t u : State} (h : s.SameOperands t) (h' : t.SameOperands u) : s.SameOperands u where
  width := h'.width.trans h.width
  height := h'.height.trans h.height
  depth := h'.depth.trans h.depth
  krnBase := h'.krnBase.trans h.krnBase
  krnSize := h'.krnSize.trans h.krnSize
  krnDiv := h'.krnDiv.trans h.krnDiv
  imgBase := h'.imgBase.trans h.imgBase
  outBase := h'.outBase.trans h.outBase

/-- The negative of a byte that holds the negative is the byte itself. -/
theorem negByte_negByte {s t : State} {k : Nat} (h : t.byteAt (t.ib + k) = negByte s k) :
    negByte t k = s.byteAt (s.ib + k) := by
  have hv := (s.byteAt (s.ib + k)).isLt
  apply BitVec.eq_of_toNat_eq
  rw [negByte_toNat, h, negByte_toNat]
  omega

/-- Two commands in place, the second writing back the image that the first found: memory is as it was. -/
theorem InPlaceResult.byteAt_restored {s t u : State} {f g : Nat → Byte} (ht : InPlaceResult s t s.isize f)
    (hu : InPlaceResult t u t.isize g) (hg : ∀ k < s.isize, g k = s.byteAt (s.ib + k)) (a : Nat) :
    u.byteAt a = s.byteAt a := by
  obtain ⟨-, -, -, -, -, hsize, hib, -⟩ := ht.operands.names
  rw [hu.bytes, hib, hsize]
  split
  case isTrue hin => rw [hg _ (by omega), Nat.add_sub_cancel' hin.1]
  case isFalse hout => rw [ht.bytes, if_neg hout]

/-- Settles O17: the second `NEG` finds the image where it was and negates the negatives. -/
theorem negIsAnInvolution : Obligations.NegIsAnInvolution := by
  intro s hd hr hu
  obtain ⟨t, hst, ht⟩ := exec_point (i := .neg) nofun rfl hd hr hu
  obtain ⟨-, -, hdepth, -, -, -, hib, -⟩ := ht.operands.names
  obtain ⟨u, htu, hur⟩ :=
    exec_point (i := .neg) nofun rfl (hdepth.symm ▸ hd) (hr.keep ht.operands ht.outside.memLast) ht.undisturbed
  refine ⟨t, u, hst, htu, ht.byteAt_restored hur fun k hk => ?_, ht.operands.trans hur.operands⟩
  exact negByte_negByte (by rw [hib, ht.inside hk])

end Sys2Proof.Machine
end
